-- ==== Sys2Proof/Word.lean ====
section
/-! DEFINITION. The data vocabulary of the Intcode core: the signed 64-bit word, parameter modes, parameters, fault codes and what
a `raise` carries (spec/00_scope.md R8, R10; spec/30_encoding.md R74; spec/60_exceptions.md R200, R202). -/

namespace Sys2Proof

/-- A memory word, an operand value, the relative base, a FIFO or log entry: a signed 64-bit value (R6, R8), held in two's
complement (spec/92_eei_decisions.md D1). Its value in ℤ is `BitVec.toInt`. -/
abbrev Word := BitVec 64

/-- The word of the low 64 bits of an integer: `wrap64` of R8; on an integer of `i64` it is that integer's own word. -/
abbrev Word.ofInt (v : Int) : Word := BitVec.ofInt 64 v

/-- The three parameter modes (spec/30_encoding.md R74). -/
inductive Mode where
  | position
  | immediate
  | relative
  deriving DecidableEq, Repr

/-- A parameter of an instruction: its mode and its parameter word, used as it stands (R77). -/
structure Param where
  mode : Mode
  word : Word
  deriving DecidableEq, Repr

/-- The fault codes 1 to 6 of spec/60_exceptions.md R200; code 0, `fault = none`, is no constructor. -/
inductive FaultCode where
  | unknownOpcode
  | invalidAddress
  | illegalWriteTarget
  | illegalMode
  | overflow
  | capacityExceeded
  deriving DecidableEq, Repr

/-- What `raise F(info)` says (spec/00_scope.md R10): the code, the parameter's 1-based index, and the offending address, opcode
value or mode digit, each as R202's table gives it for the code. -/
structure Raise where
  code  : FaultCode
  param : Option Nat
  addr  : Option Int
  deriving DecidableEq, Repr

end Sys2Proof
end

