-- ==== Sys2Proof/Config.lean ====
section
/-! DEFINITION. The implementation parameters of spec/00_scope.md R6 and R7, and the values this hardware takes. -/

namespace Sys2Proof

/-- What ADD, MUL and ARB do with an exact result outside `i64` (R6 `OVF`). -/
inductive OvfPolicy where
  | fault
  | wrap
  deriving DecidableEq, Repr

/-- The parameters of R6; a capacity of `none` is unbounded. -/
structure Config where
  memLimit   : Nat
  ovf        : OvfPolicy
  inCap      : Option Nat
  outCap     : Option Nat
  nInstances : Nat
  deriving DecidableEq, Repr

/-- The parameter values R7 states every rule for, and at least one instance (R6). -/
abbrev Config.valid (c : Config) : Prop :=
  (1 ≤ c.memLimit ∧ c.memLimit ≤ 2 ^ 63) ∧ (∀ k ∈ c.inCap, 1 ≤ k) ∧ (∀ k ∈ c.outCap, 1 ≤ k) ∧ 1 ≤ c.nInstances

/-- How many instances beyond the first a platform provides: the platform's own number, which R6 leaves open ("no upper bound
fixed"), so nothing constrains it (log entry 10). -/
opaque Config.moreInstances : Nat

/-- The column "this spec" of R6's table: `MEM_LIMIT = 2^63`, `OVF = fault`, both queues unbounded. -/
def Config.hardware : Config where
  memLimit   := 2 ^ 63
  ovf        := .fault
  inCap      := none
  outCap     := none
  nInstances := Config.moreInstances + 1

/-- Whether a queue of `n` entries is at a capacity: never, at an unbounded one. -/
def Config.full (cap : Option Nat) (n : Nat) : Bool :=
  match cap with
  | none   => false
  | some k => decide (k ≤ n)

end Sys2Proof
end

