-- ==== Sys2Proof/Machine/State.lean ====
section
/-! DEFINITION. The architectural state of one instance (spec/10_state.md R20), its value after reset, and the interface's reasons to
stop. -/

namespace Sys2Proof.Machine

/-- Memory `mem` (R29) as the cells that differ from what an unlisted address reads as, by rising address. An address names one
64-bit word: the memory has no bytes (spec/20_memory.md R52; log entry 2). -/
abbrev Memory := List (Nat × Word)

/-- What an address nothing has written reads as (R29: every such cell is 0). -/
def Memory.fill : Word := 0

/-- Whether every listed address is above `a`, judged by the first (enough where the list is canonical). -/
def Memory.startsAbove (a : Nat) : Memory → Bool
  | [] => true
  | (b, _) :: _ => decide (a < b)

/-- The canonical form: addresses strictly rising, no entry equal to what an unlisted address reads as. -/
def Memory.wf : Memory → Bool
  | [] => true
  | (a, v) :: rest => v != Memory.fill && Memory.startsAbove a rest && Memory.wf rest

/-- The record of the fault register (R27): the code, `pc` of the faulting step, the instruction word fetched there, the
parameter's index, and the offending address, opcode value or mode digit (spec/60_exceptions.md R202). -/
structure FaultRecord where
  code  : FaultCode
  fpc   : Nat
  word  : Option Word
  param : Option Nat
  addr  : Option Int
  deriving DecidableEq, Repr

/-- The tuple `S` of R20: every piece of architectural state of one instance. -/
structure State where
  /-- `mem`, R29 -/
  mem       : Memory
  /-- `mem_len`, the tape's current length, R30 -/
  memLen    : Nat
  /-- the program counter, R22 -/
  pc        : Nat
  /-- the relative-base register, R23 -/
  rb        : Word
  /-- the input FIFO, head first, R24 -/
  inFifo    : List Word
  /-- the output log, oldest first, R25 -/
  outLog    : List Word
  /-- the halted flag, R26 -/
  halted    : Bool
  /-- the fault register, R27 -/
  fault     : Option FaultRecord
  /-- the last-input register, R28 -/
  lastInput : Option Word
  deriving DecidableEq, Repr

/-- The machine right after reset with no program in memory: R250's table at `L = 0` (log entry 6). -/
def State.reset : State where
  mem       := []
  memLen    := 0
  pc        := 0
  rb        := 0
  inFifo    := []
  outLog    := []
  halted    := false
  fault     := none
  lastInput := none

/-- The interface's reasons to stop without a next state: none. The core's six faults are taken: each gives a next state whose
fault register holds the record (R203; log entry 3), so no rule of the spec ends a step here. -/
inductive Fault where
  deriving DecidableEq, Repr

/-- The interface's reasons to refuse an instruction. -/
inductive Refusal where
  /-- Raised by an arm of `exec` whose instruction has no meaning yet, by its mnemonic; safe. No arm raises it. -/
  | notModelled (mnemonic : String)
  deriving DecidableEq, Repr

/-- The step results of spec/40_controller.md R101: what one step reports beside the state it leaves. -/
inductive StepResult where
  | running
  | awaitingInput
  | halted
  | faulted (code : FaultCode)
  deriving DecidableEq, Repr

end Sys2Proof.Machine
end

