-- ==== Sys2Proof/Machine/Ops.lean ====
section
/-! DEFINITION. The named operations over memory and the registers: one memory cell, the state's updates, the access primitives of
spec/20_memory.md R51 to R56, taking a fault (spec/60_exceptions.md R203) and suspending (spec/42_io.md R151). The core has no
return from a fault (R206), so there is none here. -/

namespace Sys2Proof

/-- How much of the tape's extent a step that faults or suspends adds in a state. R56 leaves open whether the growth its reads
caused is kept, and spec/93_implementation_defined.md U2 allows any extent at or above the old one, so nothing constrains this
(log entry 5). A function of the state, because a step is one (spec/40_controller.md R114). -/
opaque Config.keptGrowth : Machine.State → Nat

/-- The numeric fault code of R200. -/
def FaultCode.number : FaultCode → Nat
  | .unknownOpcode => 1
  | .invalidAddress => 2
  | .illegalWriteTarget => 3
  | .illegalMode => 4
  | .overflow => 5
  | .capacityExceeded => 6

end Sys2Proof

namespace Sys2Proof.Machine

/-- The word at an address. -/
def Memory.get : Memory → Nat → Word
  | [], _ => Memory.fill
  | (b, v) :: rest, a => if a = b then v else Memory.get rest a

/-- Put a new cell in front, unless it holds what an unlisted address reads as. -/
def Memory.cons (a : Nat) (v : Word) (rest : Memory) : Memory :=
  if v = Memory.fill then rest else (a, v) :: rest

/-- Write the word at an address, keeping the canonical form. -/
def Memory.set : Memory → Nat → Word → Memory
  | [], a, v => Memory.cons a v []
  | (b, w) :: rest, a, v =>
    if a < b then Memory.cons a v ((b, w) :: rest)
    else if a = b then Memory.cons a v rest
    else (b, w) :: Memory.set rest a v

/-- Write the program counter. -/
def State.setPc (s : State) (a : Nat) : State := { s with pc := a }

/-- Write the relative base. -/
def State.setRb (s : State) (v : Word) : State := { s with rb := v }

/-- Write one memory cell, and nothing else. -/
def State.storeWord (s : State) (a : Nat) (v : Word) : State := { s with mem := s.mem.set a v }

/-- Write the tape's extent. -/
def State.setExtent (s : State) (n : Nat) : State := { s with memLen := n }

/-- Write the input FIFO. -/
def State.setFifo (s : State) (q : List Word) : State := { s with inFifo := q }

/-- Append to the output log: `OutAppend(v)` of R25. -/
def State.appendOut (s : State) (v : Word) : State := { s with outLog := s.outLog ++ [v] }

/-- Set the halted flag (R26). -/
def State.setHalted (s : State) : State := { s with halted := true }

/-- Write the fault register (R27). -/
def State.setFault (s : State) (r : FaultRecord) : State := { s with fault := some r }

/-- Write the last-input register (R28). -/
def State.noteInput (s : State) (v : Word) : State := { s with lastInput := some v }

/-- `grow(a)` of R56. -/
def State.grow (s : State) (a : Nat) : State := s.setExtent (max s.memLen (a + 1))

/-- The address checks of R51: a negative address raises InvalidAddress, one at or above `MEM_LIMIT` CapacityExceeded; `k` is the
parameter being resolved, if one is. -/
def checkAddr (c : Config) (k : Option Nat) (a : Int) : Except Raise Nat :=
  if a < 0 then .error ⟨.invalidAddress, k, some a⟩
  else if (c.memLimit : Int) ≤ a then .error ⟨.capacityExceeded, k, some a⟩
  else .ok a.toNat

/-- `MemRead(a, 1)` of R54: the word, and the state with the tape grown. -/
def memRead (c : Config) (k : Option Nat) (a : Int) (s : State) : Except Raise (Word × State) := do
  let n ← checkAddr c k a
  .ok (s.mem.get n, s.grow n)

/-- `MemWrite(a, 1, v)` of R55. -/
def memWrite (c : Config) (k : Option Nat) (a : Int) (v : Word) (s : State) : Except Raise State := do
  let n ← checkAddr c k a
  .ok ((s.grow n).storeWord n v)

/-- The word fetched at `pc`, if the fetch does not itself fault (R103). -/
def fetchedWord (c : Config) (s : State) : Option Word :=
  if s.pc < c.memLimit then some (s.mem.get s.pc) else none

/-- The record a raise leaves in the fault register (R202). Its `word` is read again from memory at `pc`, which the step has not
written (log entry 7). -/
def faultRecord (c : Config) (s : State) (r : Raise) : FaultRecord where
  code  := r.code
  fpc   := s.pc
  word  := fetchedWord c s
  param := r.param
  addr  := r.addr

/-- The tape's extent after a step that commits nothing (R56; log entry 5). -/
def stoppedExtent (s : State) : Nat := s.memLen + Config.keptGrowth s

/-- TAKING A FAULT (R203): from the state before the step, so that no write of the step is committed; the fault register holds
the record, `pc` and everything else stay, and the step result is `Faulted(code)`. -/
def takeFault (c : Config) (s : State) (r : Raise) : StepResult × State :=
  (.faulted r.code, (s.setExtent (stoppedExtent s)).setFault (faultRecord c s r))

/-- Suspending (R151): nothing is written and the step result is `AwaitingInput`. -/
def suspend (s : State) : StepResult × State :=
  (.awaitingInput, s.setExtent (stoppedExtent s))

/-- End a step: commit what its actions give, or take the first fault they raise (R112). -/
def settle (c : Config) (s : State) (x : Except Raise (StepResult × State)) : StepResult × State :=
  match x with
  | .ok r    => r
  | .error r => takeFault c s r

/-- A step seen through the host's interface, which carries the state alone: every step result has a next state (log entries 3
and 4). -/
def answer (r : StepResult × State) : Host.Outcome State Fault Refusal := .next r.2

end Sys2Proof.Machine
end

