-- ==== Sys2Proof/Machine/Flags.lean ====
section
/-! DEFINITION. What the ALU decides about a value. The core has no flags or condition codes (spec/10_state.md R31): in their place
stand the result check of spec/40_controller.md R109 and the truth values the compares write (spec/44_compare.md R170, R171). -/

namespace Sys2Proof.Machine

/-- `fits64(v)` of spec/00_scope.md R8. -/
abbrev fits64 (v : Int) : Prop := -2 ^ 63 ≤ v ∧ v ≤ 2 ^ 63 - 1

/-- `Fit(v)` of R109. -/
def fit (c : Config) (v : Int) : Except Raise Word :=
  if fits64 v then .ok (Word.ofInt v)
  else match c.ovf with
    | .fault => .error ⟨.overflow, none, none⟩
    | .wrap  => .ok (Word.ofInt v)

/-- 1 for true and 0 for false, the words LT and EQ write. -/
def truth (b : Bool) : Word := if b then 1 else 0

end Sys2Proof.Machine
end

