-- ==== Sys2Proof/Machine/Operands.lean ====
section
/-! DEFINITION. Operand resolution (spec/40_controller.md R105 to R107) and the tape's extent after a committed step (R30, R56). -/

namespace Sys2Proof.Machine

/-- The address a parameter names, an exact integer (R105, R106); an Immediate parameter names none. -/
def paramAddr (s : State) (p : Param) : Option Int :=
  match p.mode with
  | .position  => some p.word.toInt
  | .immediate => none
  | .relative  => some (s.rb.toInt + p.word.toInt)

/-- `ResolveRead` of R105 for parameter `k`. Growth is accounted at the commit, by `extentAfter`. -/
def readOperand (c : Config) (k : Nat) (p : Param) (s : State) : Except Raise Word :=
  match paramAddr s p with
  | none   => .ok p.word
  | some a => do
    let r ← memRead c (some k) a s
    .ok r.1

/-- `ResolveWrite` of R107 for parameter `k`: the address, checked, with nothing written. An Immediate write parameter raises
IllegalWriteTarget (R76); the decoder refuses it first (log entry 8). -/
def writeTarget (c : Config) (k : Nat) (p : Param) (s : State) : Except Raise Nat :=
  match paramAddr s p with
  | none   => .error ⟨.illegalWriteTarget, some k, none⟩
  | some a => checkAddr c (some k) a

/-- `mem_len` after a committed step at `pc` with parameters `ps`: the instruction's own words and every cell a parameter names
have been accessed (R30, R56). -/
def extentAfter (s : State) (ps : List Param) : Nat :=
  (ps.filterMap (paramAddr s)).foldl (fun m a => max m (a.toNat + 1)) (max s.memLen (s.pc + ps.length + 1))

/-- The commit every instruction shares (R110, R112): the tape's extent, then `pc`, over what the opcode has written. -/
def commit (s : State) (ps : List Param) (pc' : Nat) (written : State) : State :=
  (written.setExtent (extentAfter s ps)).setPc pc'

end Sys2Proof.Machine
end

