-- ==== Sys2Proof/Machine/Ternary.lean ====
section
/-! DEFINITION. The shape ADD, MUL, LT and EQ share: two read operands, a result, one memory write (spec/40_controller.md R102, R112). -/

namespace Sys2Proof.Machine

/-- Resolve parameters 1, 2 and 3 in order, compute the result from the two values, write it and advance by 4. -/
def ternary (c : Config) (f : Int → Int → Except Raise Word) (a b dst : Param) (s : State) : StepResult × State :=
  settle c s do
    let x ← readOperand c 1 a s
    let y ← readOperand c 2 b s
    let n ← writeTarget c 3 dst s
    let r ← f x.toInt y.toInt
    .ok (.running, commit s [a, b, dst] (s.pc + 4) (s.storeWord n r))

end Sys2Proof.Machine
end

