-- ==== Sys2Proof/Machine/Arithmetic.lean ====
section
/-! DEFINITION. ADD and MUL (spec/41_arithmetic.md R140 to R142). -/

namespace Sys2Proof.Machine

/-- ADD under any parameters (R140): the exact sum, then `Fit`. -/
def addUnder (c : Config) (a b dst : Param) (s : State) : StepResult × State :=
  ternary c (fun x y => fit c (x + y)) a b dst s

/-- ADD on this hardware. -/
def execAdd (a b dst : Param) (s : State) : Host.Outcome State Fault Refusal :=
  answer (addUnder Config.hardware a b dst s)

/-- MUL under any parameters (R141): the exact product, then `Fit`. -/
def mulUnder (c : Config) (a b dst : Param) (s : State) : StepResult × State :=
  ternary c (fun x y => fit c (x * y)) a b dst s

/-- MUL on this hardware. -/
def execMul (a b dst : Param) (s : State) : Host.Outcome State Fault Refusal :=
  answer (mulUnder Config.hardware a b dst s)

end Sys2Proof.Machine
end

