-- ==== Sys2Proof/Machine/Compare.lean ====
section
/-! DEFINITION. LT and EQ (spec/44_compare.md R170, R171). -/

namespace Sys2Proof.Machine

/-- LT under any parameters (R170): the signed order of ℤ. -/
def ltUnder (c : Config) (a b dst : Param) (s : State) : StepResult × State :=
  ternary c (fun x y => .ok (truth (decide (x < y)))) a b dst s

/-- LT on this hardware. -/
def execLt (a b dst : Param) (s : State) : Host.Outcome State Fault Refusal :=
  answer (ltUnder Config.hardware a b dst s)

/-- EQ under any parameters (R171): equality of the full values. -/
def eqUnder (c : Config) (a b dst : Param) (s : State) : StepResult × State :=
  ternary c (fun x y => .ok (truth (decide (x = y)))) a b dst s

/-- EQ on this hardware. -/
def execEq (a b dst : Param) (s : State) : Host.Outcome State Fault Refusal :=
  answer (eqUnder Config.hardware a b dst s)

end Sys2Proof.Machine
end

