-- ==== Sys2Proof/Machine/Halt.lean ====
section
/-! DEFINITION. HALT (spec/46_halt.md R190). -/

namespace Sys2Proof.Machine

/-- HALT (R190): the flag is set and `pc` advances by 1 (spec/90_conflicts.md C8). No parameter of the configuration bears on it. -/
def haltUnder (s : State) : StepResult × State :=
  (.halted, commit s [] (s.pc + 1) s.setHalted)

/-- HALT on this hardware. -/
def execHalt (s : State) : Host.Outcome State Fault Refusal :=
  answer (haltUnder s)

end Sys2Proof.Machine
end

