-- ==== Sys2Proof/Machine/InputOutput.lean ====
section
/-! DEFINITION. IN and OUT (spec/42_io.md R150 to R153). -/

namespace Sys2Proof.Machine

/-- IN under any parameters (R150, R151): the target is resolved first, so a faulty IN faults on an empty FIFO too (R205). -/
def inpUnder (c : Config) (dst : Param) (s : State) : StepResult × State :=
  settle c s do
    let n ← writeTarget c 1 dst s
    match s.inFifo with
    | []        => .ok (suspend s)
    | v :: rest =>
      .ok (.running, commit s [dst] (s.pc + 2) (((s.storeWord n v).setFifo rest).noteInput v))

/-- IN on this hardware. -/
def execInp (dst : Param) (s : State) : Host.Outcome State Fault Refusal :=
  answer (inpUnder Config.hardware dst s)

/-- OUT under any parameters (R152): a full log, possible only with a finite `OUT_CAP`, raises CapacityExceeded. -/
def outUnder (c : Config) (a : Param) (s : State) : StepResult × State :=
  settle c s do
    let x ← readOperand c 1 a s
    if Config.full c.outCap s.outLog.length then .error ⟨.capacityExceeded, none, none⟩
    else .ok (.running, commit s [a] (s.pc + 2) (s.appendOut x))

/-- OUT on this hardware. -/
def execOut (a : Param) (s : State) : Host.Outcome State Fault Refusal :=
  answer (outUnder Config.hardware a s)

end Sys2Proof.Machine
end

