-- ==== Sys2Proof/Machine/Jumps.lean ====
section
/-! DEFINITION. JT and JF (spec/43_jumps.md R160 to R163). -/

namespace Sys2Proof.Machine

/-- Both operands are resolved whether or not the jump is taken; a taken jump to a negative target raises InvalidAddress with
`param = 2` (R162), and its target is not checked against `MEM_LIMIT`. -/
def jumpWhen (c : Config) (taken : Int → Bool) (a b : Param) (s : State) : StepResult × State :=
  settle c s do
    let x ← readOperand c 1 a s
    let y ← readOperand c 2 b s
    if taken x.toInt then
      if y.toInt < 0 then .error ⟨.invalidAddress, some 2, some y.toInt⟩
      else .ok (.running, commit s [a, b] y.toInt.toNat s)
    else .ok (.running, commit s [a, b] (s.pc + 3) s)

/-- JT under any parameters (R160). -/
def jtUnder (c : Config) (a b : Param) (s : State) : StepResult × State :=
  jumpWhen c (fun x => decide (x ≠ 0)) a b s

/-- JT on this hardware. -/
def execJt (a b : Param) (s : State) : Host.Outcome State Fault Refusal :=
  answer (jtUnder Config.hardware a b s)

/-- JF under any parameters (R161). -/
def jfUnder (c : Config) (a b : Param) (s : State) : StepResult × State :=
  jumpWhen c (fun x => decide (x = 0)) a b s

/-- JF on this hardware. -/
def execJf (a b : Param) (s : State) : Host.Outcome State Fault Refusal :=
  answer (jfUnder Config.hardware a b s)

end Sys2Proof.Machine
end

