-- ==== Sys2Proof/Machine/RelBase.lean ====
section
/-! DEFINITION. ARB (spec/45_relbase.md R180). -/

namespace Sys2Proof.Machine

/-- ARB under any parameters (R180): a Relative operand is read with the old base. -/
def arbUnder (c : Config) (a : Param) (s : State) : StepResult × State :=
  settle c s do
    let x ← readOperand c 1 a s
    let r ← fit c (s.rb.toInt + x.toInt)
    .ok (.running, commit s [a] (s.pc + 2) (s.setRb r))

/-- ARB on this hardware. -/
def execArb (a : Param) (s : State) : Host.Outcome State Fault Refusal :=
  answer (arbUnder Config.hardware a s)

end Sys2Proof.Machine
end

