-- ==== Sys2Proof/Syntax.lean ====
section
/-! DEFINITION. The ten instructions of spec/30_encoding.md R80 (spec/opcode_table.json), one constructor per row, with their
parameters in order. -/

namespace Sys2Proof

/-- An instruction with its fetched parameters (R70, R80). A parameter named `dst` is the row's write operand. -/
inductive Instr where
  /-- opcode 1, R140 -/
  | add (a b dst : Param)
  /-- opcode 2, R141 -/
  | mul (a b dst : Param)
  /-- opcode 3, IN, R150 -/
  | inp (dst : Param)
  /-- opcode 4, OUT, R152 -/
  | out (a : Param)
  /-- opcode 5, R160 -/
  | jt (a b : Param)
  /-- opcode 6, R161 -/
  | jf (a b : Param)
  /-- opcode 7, R170 -/
  | lt (a b dst : Param)
  /-- opcode 8, R171 -/
  | eq (a b dst : Param)
  /-- opcode 9, R180 -/
  | arb (a : Param)
  /-- opcode 99, R190 -/
  | halt
  deriving DecidableEq, Repr

/-- The parameters in order. -/
def Instr.params : Instr → List Param
  | .add a b d => [a, b, d]
  | .mul a b d => [a, b, d]
  | .inp d => [d]
  | .out a => [a]
  | .jt a b => [a, b]
  | .jf a b => [a, b]
  | .lt a b d => [a, b, d]
  | .eq a b d => [a, b, d]
  | .arb a => [a]
  | .halt => []

/-- The write operand, if the instruction has one (R76: always the last parameter). -/
def Instr.target : Instr → Option Param
  | .add _ _ d => some d
  | .mul _ _ d => some d
  | .inp d => some d
  | .lt _ _ d => some d
  | .eq _ _ d => some d
  | .out _ => none
  | .jt _ _ => none
  | .jf _ _ => none
  | .arb _ => none
  | .halt => none

/-- Length in words: the instruction word and its parameters (R70, R81). -/
def Instr.length (i : Instr) : Nat := 1 + i.params.length

end Sys2Proof
end

