-- ==== Sys2Proof/WellFormed.lean ====
section
/-! DEFINITION. Which terms of `Instr` are instructions: the write operand's mode is not Immediate (spec/30_encoding.md R74, R76).
Every other combination of modes and parameter words is one (R77, R80). -/

namespace Sys2Proof

/-- A mode a write operand may have (R74). -/
def Mode.writable : Mode → Bool
  | .immediate => false
  | .position => true
  | .relative => true

/-- A well-formed instruction: one some word sequence decodes to. -/
def WellFormed : Instr → Bool
  | .add _ _ d => d.mode.writable
  | .mul _ _ d => d.mode.writable
  | .inp d => d.mode.writable
  | .lt _ _ d => d.mode.writable
  | .eq _ _ d => d.mode.writable
  | .out _ => true
  | .jt _ _ => true
  | .jf _ _ => true
  | .arb _ => true
  | .halt => true

end Sys2Proof
end

