-- ==== Sys2Proof/Decode.lean ====
section
/-! DEFINITION. The decimal decoder of spec/30_encoding.md (R71 to R82), total on every word, rejecting by the fault it raises, and
the canonical encoder of R83. -/

namespace Sys2Proof

/-- `digit(w, i)` of spec/00_scope.md R9. -/
def digit (v i : Nat) : Nat := v / 10 ^ i % 10

/-- The legal mode digits (R74). -/
def Mode.ofDigit : Nat → Option Mode
  | 0 => some .position
  | 1 => some .immediate
  | 2 => some .relative
  | _ => none

/-- The digit of a mode (R74). -/
def Mode.toDigit : Mode → Nat
  | .position => 0
  | .immediate => 1
  | .relative => 2

/-- What the instruction word alone gives: the opcode and a mode per parameter it has (`(op, n, m_1 .. m_n)` of R78). -/
inductive Header where
  | add (a b dst : Mode)
  | mul (a b dst : Mode)
  | inp (dst : Mode)
  | out (a : Mode)
  | jt (a b : Mode)
  | jf (a b : Mode)
  | lt (a b dst : Mode)
  | eq (a b dst : Mode)
  | arb (a : Mode)
  | halt
  deriving DecidableEq, Repr

/-- The mode of parameter `k` of a word of value `v`, mode digit `k + 1`; digits 3 to 9 raise IllegalMode (R75, R78). -/
def readMode (k v : Nat) : Except Raise Mode :=
  match Mode.ofDigit (digit v (k + 1)) with
  | some m => .ok m
  | none   => .error ⟨.illegalMode, some k, some (digit v (k + 1) : Nat)⟩

/-- The mode of a write parameter: as `readMode`, and then mode 1 raises IllegalWriteTarget (R76, R78). -/
def writeMode (k v : Nat) : Except Raise Mode :=
  match readMode k v with
  | .ok .immediate => .error ⟨.illegalWriteTarget, some k, none⟩
  | r              => r

/-- One write parameter. -/
def modesW (mk : Mode → Header) (v : Nat) : Except Raise Header := do
  let d ← writeMode 1 v
  .ok (mk d)

/-- One read parameter. -/
def modesR (mk : Mode → Header) (v : Nat) : Except Raise Header := do
  let a ← readMode 1 v
  .ok (mk a)

/-- Two read parameters, checked in ascending order. -/
def modesRR (mk : Mode → Mode → Header) (v : Nat) : Except Raise Header := do
  let a ← readMode 1 v
  let b ← readMode 2 v
  .ok (mk a b)

/-- Two read parameters and a write parameter, checked in ascending order. -/
def modesRRW (mk : Mode → Mode → Mode → Header) (v : Nat) : Except Raise Header := do
  let a ← readMode 1 v
  let b ← readMode 2 v
  let d ← writeMode 3 v
  .ok (mk a b d)

/-- The opcode map on a non-negative word's value (R78 to R80): the opcode is the low two decimal digits. -/
def decodeValue (v : Nat) : Except Raise Header :=
  match v % 100 with
  | 1  => modesRRW .add v
  | 2  => modesRRW .mul v
  | 3  => modesW .inp v
  | 4  => modesR .out v
  | 5  => modesRR .jt v
  | 6  => modesRR .jf v
  | 7  => modesRRW .lt v
  | 8  => modesRRW .eq v
  | 9  => modesR .arb v
  | 99 => .ok .halt
  | op => .error ⟨.unknownOpcode, none, some (op : Nat)⟩

/-- `Decode(w)` of R78: a negative word raises UnknownOpcode (R73); any other decodes by its decimal digits. -/
def decodeHeader (w : Word) : Except Raise Header :=
  if w.toInt < 0 then .error ⟨.unknownOpcode, none, none⟩ else decodeValue w.toNat

/-- `NPARAMS` of R78. -/
def Header.nparams : Header → Nat
  | .add _ _ _ => 3
  | .mul _ _ _ => 3
  | .inp _ => 1
  | .out _ => 1
  | .jt _ _ => 2
  | .jf _ _ => 2
  | .lt _ _ _ => 3
  | .eq _ _ _ => 3
  | .arb _ => 1
  | .halt => 0

/-- The instruction whose parameter word `k` is `p k`, `k` from 1 (R70). -/
def Header.withParams (h : Header) (p : Nat → Word) : Instr :=
  match h with
  | .add a b d => .add ⟨a, p 1⟩ ⟨b, p 2⟩ ⟨d, p 3⟩
  | .mul a b d => .mul ⟨a, p 1⟩ ⟨b, p 2⟩ ⟨d, p 3⟩
  | .inp d => .inp ⟨d, p 1⟩
  | .out a => .out ⟨a, p 1⟩
  | .jt a b => .jt ⟨a, p 1⟩ ⟨b, p 2⟩
  | .jf a b => .jf ⟨a, p 1⟩ ⟨b, p 2⟩
  | .lt a b d => .lt ⟨a, p 1⟩ ⟨b, p 2⟩ ⟨d, p 3⟩
  | .eq a b d => .eq ⟨a, p 1⟩ ⟨b, p 2⟩ ⟨d, p 3⟩
  | .arb a => .arb ⟨a, p 1⟩
  | .halt => .halt

/-- Why a list of words is no instruction: the decoder's fault, or fewer words than the instruction has. The core's memory never
runs out of words (R104); only a finite list can be short. -/
inductive Reject where
  | raised (r : Raise)
  | truncated
  deriving DecidableEq, Repr

/-- The instruction at the front of a list of words, and the words after it. -/
def decode : List Word → Except Reject (Instr × List Word)
  | [] => .error .truncated
  | w :: ws =>
    match decodeHeader w with
    | .error r => .error (.raised r)
    | .ok h =>
      if ws.length < h.nparams then .error .truncated
      else .ok (h.withParams (fun k => ws.getD (k - 1) 0), ws.drop h.nparams)

/-- The opcode of an instruction (R80). -/
def Instr.opcode : Instr → Nat
  | .add _ _ _ => 1
  | .mul _ _ _ => 2
  | .inp _ => 3
  | .out _ => 4
  | .jt _ _ => 5
  | .jf _ _ => 6
  | .lt _ _ _ => 7
  | .eq _ _ _ => 8
  | .arb _ => 9
  | .halt => 99

/-- The mode digits of parameters `k, k + 1, ..` in their decimal places: the sum of `m_k * 10^(k+1)` (R83). -/
def modeDigits (k : Nat) : List Param → Nat
  | [] => 0
  | p :: ps => p.mode.toDigit * 10 ^ (k + 1) + modeDigits (k + 1) ps

/-- The canonical instruction word (R83). -/
def encodeWord (i : Instr) : Word := BitVec.ofNat 64 (i.opcode + modeDigits 1 i.params)

/-- The canonical word sequence `w, p_1, .., p_n` (R83). -/
def encode (i : Instr) : List Word := encodeWord i :: i.params.map (·.word)

/-- The longest instruction, in words (R70). -/
def maxWords : Nat := 4

/-- The words of an instruction given as one number of `nbits` bits, bit 0 the least significant of the first word; every bit
from `nbits` on is 0. -/
def tableWords (nbits w : Nat) : List Word :=
  (List.range maxWords).map fun k => BitVec.ofNat 64 ((w % 2 ^ nbits) >>> (64 * k))

/-- The instruction the decoder reads from the opcode table's numbering of its bits, if it reads one. -/
def decodeTableWord (nbits w : Nat) : Option Instr :=
  match decode (tableWords nbits w) with
  | .ok (i, _) => some i
  | .error _   => none

end Sys2Proof
end

