-- ==== Sys2Proof/Machine/Fetch.lean ====
section
/-! DEFINITION. Fetching an instruction (spec/40_controller.md R102 to R104, R108). -/

namespace Sys2Proof.Machine

/-- The word at `pc + k`: the instruction word for `k = 0`, parameter word `k` otherwise. -/
def wordAt (s : State) (k : Nat) : Word := s.mem.get (s.pc + k)

/-- The smallest parameter index `k` in `1 .. n` with `pc + k >= MEM_LIMIT`, if there is one (R108). -/
def beyondParam (c : Config) (s : State) (n : Nat) : Option Nat :=
  ((List.range n).map (· + 1)).find? fun k => decide (c.memLimit ≤ s.pc + k)

/-- Fetch, decode, parameter fetch, in that order (R102): the instruction at `pc` with its parameter words, or the first fault.
A parameter word beyond the tape's length reads 0 (R104). -/
def fetchInstr (c : Config) (s : State) : Except Raise Instr :=
  if c.memLimit ≤ s.pc then .error ⟨.capacityExceeded, none, some (s.pc : Int)⟩
  else match decodeHeader (wordAt s 0) with
    | .error r => .error r
    | .ok h    =>
      match beyondParam c s h.nparams with
      | some k => .error ⟨.capacityExceeded, some k, some (s.pc + k : Int)⟩
      | none   => .ok (h.withParams (wordAt s))

end Sys2Proof.Machine
end

