-- ==== Sys2Proof/Machine/Controller.lean ====
section
/-! DEFINITION. The controller under any parameters of spec/00_scope.md R6: a step with its step result (spec/40_controller.md R100 to
R102), and RUN and RUN_TO_OUTPUT built from it (R116, R117). -/

namespace Sys2Proof.Machine

/-- The execute part of R102 under any parameters, with the step result. -/
def execUnder (c : Config) (i : Instr) (s : State) : StepResult × State :=
  match i with
  | .add a b dst => addUnder c a b dst s
  | .mul a b dst => mulUnder c a b dst s
  | .inp dst => inpUnder c dst s
  | .out a => outUnder c a s
  | .jt a b => jtUnder c a b s
  | .jf a b => jfUnder c a b s
  | .lt a b dst => ltUnder c a b dst s
  | .eq a b dst => eqUnder c a b dst s
  | .arb a => arbUnder c a s
  | .halt => haltUnder s

/-- What a step of a stopped instance returns, changing nothing (R100); `none` for an instance that can step. -/
def stoppedResult (s : State) : Option StepResult :=
  match s.fault with
  | some r => some (.faulted r.code)
  | none   => if s.halted then some .halted else none

/-- `Step(S)` of R100 and R102. -/
def stepUnder (c : Config) (s : State) : StepResult × State :=
  match stoppedResult s with
  | some r => (r, s)
  | none   =>
    match fetchInstr c s with
    | .error r => takeFault c s r
    | .ok i    => execUnder c i s

/-- RUN (R116), for at most `fuel` steps; `none` is "no result" (R118; log entry 9), never a step result. -/
def run (c : Config) : Nat → State → Option (StepResult × State)
  | 0, _ => none
  | fuel + 1, s =>
    match stepUnder c s with
    | (.running, t) => run c fuel t
    | (r, t)        => some (r, t)

/-- What RUN_TO_OUTPUT and the other execution commands return (spec/60_exceptions.md R226): a step result or a value. -/
inductive Response where
  | result (r : StepResult)
  | value (v : Word)
  deriving DecidableEq, Repr

/-- RUN_TO_OUTPUT (R117), for at most `fuel` steps: it stops after the first step that appends to the log. -/
def runToOutput (c : Config) : Nat → State → Option (Response × State)
  | 0, _ => none
  | fuel + 1, s =>
    match stepUnder c s with
    | (.running, t) =>
      match t.outLog[s.outLog.length]? with
      | some v => some (.value v, t)
      | none   => runToOutput c fuel t
    | (r, t) => some (.result r, t)

end Sys2Proof.Machine
end

