-- ==== Sys2Proof/Machine/Step.lean ====
section
/-! DEFINITION. One step of this hardware through the host's interface (spec/40_controller.md R100, R102; spec/60_exceptions.md R222). -/

namespace Sys2Proof.Machine

/-- One step: a halted or faulted instance stays as it is (R100); otherwise fetch and decode, and either the fault that raises is
taken or the instruction is executed (R102). -/
def step (s : State) : Host.Outcome State Fault Refusal :=
  match stoppedResult s with
  | some r => answer (r, s)
  | none   =>
    match fetchInstr Config.hardware s with
    | .error r => answer (takeFault Config.hardware s r)
    | .ok i    => exec i s

/-- Store words from address `a` on, as the host's WRITE_ADDR stores one, where the addresses exist. -/
def State.patch (s : State) (a : Nat) : List Word → State
  | [] => s
  | w :: ws =>
    if a < Config.hardware.memLimit then ((s.grow a).storeWord a w).patch (a + 1) ws else s

/-- `s` with an instruction, given as the opcode table numbers its bits, stored at `pc`, and neither halted nor faulted, so that the
next step fetches and runs it (log entry 6). -/
def State.withFetchWord (s : State) (nbits w : Nat) : State :=
  State.patch { s with halted := false, fault := none } s.pc (tableWords nbits w)

end Sys2Proof.Machine
end

