-- ==== Sys2Proof/Machine/Load.lean ====
section
/-! DEFINITION. LOAD, the only reset (spec/70_reset_and_hazards.md R250 to R252), with the program-text grammar of R251. -/

namespace Sys2Proof.Machine

/-- The memory that holds the words from address `a` on. -/
def Memory.ofWords : Nat → List Word → Memory
  | _, [] => []
  | a, w :: ws => Memory.cons a w (Memory.ofWords (a + 1) ws)

/-- The state LOAD leaves for the program `P` (R250). -/
def State.load (P : List Word) : State := { State.reset with mem := Memory.ofWords 0 P, memLen := P.length }

/-- Why a host command could not be carried out (spec/60_exceptions.md R227). CapacityExceeded is also LOAD's, for a program
longer than `MEM_LIMIT` (R250). -/
inductive HostError where
  | malformedProgram
  | invalidAddress
  | capacityExceeded
  | illegalWriteTarget
  | illegalMode
  | frozen
  | inputFull
  | nonAscii
  | badIndex
  deriving DecidableEq, Repr

/-- A space, tab, CR or LF, which surround a token without belonging to it (R251). -/
def isBlank (x : Char) : Bool := x = ' ' || x = '\t' || x = '\r' || x = '\n'

/-- A token without its leading and trailing blanks. -/
def trim (t : List Char) : List Char := ((t.dropWhile isBlank).reverse.dropWhile isBlank).reverse

/-- A decimal digit's value. -/
def digitValue (x : Char) : Option Nat :=
  if '0'.toNat ≤ x.toNat ∧ x.toNat ≤ '9'.toNat then some (x.toNat - '0'.toNat) else none

/-- The value of a run of digits after a prefix of value `n`. -/
def digitsValue : Nat → List Char → Option Nat
  | n, [] => some n
  | n, x :: xs =>
    match digitValue x with
    | some d => digitsValue (10 * n + d) xs
    | none   => none

/-- The value of `[0-9]+`. -/
def unsignedValue (t : List Char) : Option Nat :=
  match t with
  | [] => none
  | _  => digitsValue 0 t

/-- The value of `[+-]?[0-9]+`. -/
def signedValue (t : List Char) : Option Int :=
  match t with
  | '-' :: ds => (unsignedValue ds).map fun n : Nat => -(n : Int)
  | '+' :: ds => (unsignedValue ds).map fun n : Nat => (n : Int)
  | ds        => (unsignedValue ds).map fun n : Nat => (n : Int)

/-- The word of a token, if it is one (R251). -/
def tokenWord (t : List Char) : Option Word :=
  match signedValue (trim t) with
  | some v => if fits64 v then some (Word.ofInt v) else none
  | none   => none

/-- Split at every comma: k commas give k + 1 tokens. -/
def splitCommas : List Char → List (List Char)
  | [] => [[]]
  | x :: xs =>
    if x = ',' then [] :: splitCommas xs
    else match splitCommas xs with
      | t :: ts => (x :: t) :: ts
      | []      => [[x]]

/-- The words of the tokens, if every token is one. -/
def tokensWords : List (List Char) → Option (List Word)
  | [] => some []
  | t :: ts =>
    match tokenWord t, tokensWords ts with
    | some w, some ws => some (w :: ws)
    | _, _            => none

/-- `Parse(text)` of R251. -/
def parse (text : List Char) : Except HostError (List Word) :=
  match tokensWords (splitCommas text) with
  | some ws => .ok ws
  | none    => .error .malformedProgram

/-- LOAD(text): the fresh instance's state, or the error that creates none (R250). -/
def loadText (c : Config) (text : List Char) : Except HostError State :=
  match parse text with
  | .error e => .error e
  | .ok P    => if c.memLimit < P.length then .error .capacityExceeded else .ok (State.load P)

end Sys2Proof.Machine
end

