-- ==== Sys2Proof/Machine/Commands.lean ====
section
/-! DEFINITION. The host's commands on one instance (spec/60_exceptions.md R220 to R239): the core's own (R222 to R233), and the host
software composed of them with its two cursors (R235 to R237). -/

namespace Sys2Proof.Machine

/-- The numeric fault code of R200, 0 for none. -/
def faultNumber : Option FaultCode → Nat
  | none   => 0
  | some f => f.number

/-- `kind` of R226. -/
def Response.kind : Response → Nat
  | .result .running       => 0
  | .result .awaitingInput => 1
  | .result .halted        => 2
  | .result (.faulted _)   => 3
  | .value _               => 4

/-- `code` of R226: the fault code when `kind = 3`, and 0 otherwise. -/
def Response.code : Response → Nat
  | .result (.faulted f)   => faultNumber (some f)
  | .result .running       => faultNumber none
  | .result .awaitingInput => faultNumber none
  | .result .halted        => faultNumber none
  | .value _               => faultNumber none

/-- `value` of R226: the output value when `kind = 4`, and 0 otherwise; a 64-bit word of its own. -/
def Response.word : Response → Word
  | .value v  => v
  | .result _ => 0

/-- The packed status word of R226: `kind` in bits 2..0, `code` in bits 7..4, every other bit 0. -/
def Response.status (r : Response) : Nat := r.kind ||| r.code <<< 4

/-- FEED(v) (R228): accepted in every state, halted and faulted included. -/
def feed (c : Config) (v : Word) (s : State) : Except HostError State :=
  if Config.full c.inCap s.inFifo.length then .error .inputFull else .ok (s.setFifo (s.inFifo ++ [v]))

/-- OUTPUTS (R229). -/
def outputs (s : State) : List Word := s.outLog

/-- OUT_LEN (R229). -/
def outLen (s : State) : Nat := s.outLog.length

/-- OUT_READ(i) (R229). -/
def outRead (i : Int) (s : State) : Except HostError Word :=
  if i < 0 then .error .badIndex
  else match s.outLog[i.toNat]? with
    | some v => .ok v
    | none   => .error .badIndex

/-- LAST_INPUT_WAS(v) (R232). -/
def lastInputWas (v : Word) (s : State) : Bool := decide (s.lastInput = some v)

/-- The host error of a failed address check (R227): the two faults `checkAddr` raises. -/
def hostErrorOf (r : Raise) : HostError :=
  match r.code with
  | .invalidAddress     => .invalidAddress
  | .capacityExceeded   => .capacityExceeded
  | .illegalWriteTarget => .illegalWriteTarget
  | .illegalMode        => .illegalMode
  | .unknownOpcode      => .illegalMode
  | .overflow           => .illegalMode

/-- The mode a host gives as a number (R231). -/
def hostMode (mode : Int) : Option Mode := if mode < 0 then none else Mode.ofDigit mode.toNat

/-- READ_ADDR(addr, mode) (R231): the value, and the state with the tape grown. -/
def readAddr (c : Config) (addr : Word) (mode : Int) (s : State) : Except HostError (Word × State) :=
  match hostMode mode with
  | none   => .error .illegalMode
  | some m =>
    match paramAddr s ⟨m, addr⟩ with
    | none   => .ok (addr, s)
    | some a => (memRead c none a s).mapError hostErrorOf

/-- WRITE_ADDR(addr, v, mode) (R231): refused as Frozen on a halted or faulted instance, before any other check. -/
def writeAddr (c : Config) (addr v : Word) (mode : Int) (s : State) : Except HostError State :=
  if s.halted || s.fault.isSome then .error .frozen
  else match hostMode mode with
    | none   => .error .illegalMode
    | some m =>
      match paramAddr s ⟨m, addr⟩ with
      | none   => .error .illegalWriteTarget
      | some a => (memWrite c none a v s).mapError hostErrorOf

/-- The character code FEED_ASCII feeds after a line, and REQUIRE_ASCII_LINE reads up to (R235). -/
def newline : Word := 10

/-- FEED_ASCII(text) (R235): all of the text's codes and a newline, or nothing. -/
def feedAscii (c : Config) (text : List Char) (s : State) : Except HostError State :=
  if text.any fun x => decide (127 < x.toNat) then .error .nonAscii
  else
    let fits : Bool := match c.inCap with
      | none   => true
      | some k => decide (s.inFifo.length + text.length + 1 ≤ k)
    if fits then .ok (s.setFifo (s.inFifo ++ text.map (fun x => BitVec.ofNat 64 x.toNat) ++ [newline]))
    else .error .inputFull

/-- One instance as the host holds it: the core's state, and the host's two cursors into its log (R236), which are no core state. -/
structure Session where
  core        : State
  batchCursor : Nat
  lineCursor  : Nat
  deriving DecidableEq, Repr

/-- An instance LOAD or a snapshot has just created: both cursors 0 (R236; a snapshot copies no cursor). -/
def Session.fresh (s : State) : Session := ⟨s, 0, 0⟩

/-- What a command returns: its response (R226), what it read, or a host error (R227). -/
inductive Reply where
  | ok
  | response (r : Response)
  | value (v : Word)
  | words (vs : List Word)
  | count (n : Nat)
  | bool (b : Bool)
  | snapshot (s : State)
  | batch (vs : List Word) (r : StepResult)
  | line (text : List Char)
  | stop (r : StepResult)
  | error (e : HostError)
  deriving DecidableEq, Repr

/-- REQUIRE_INPUT_BATCH (R236): run until the instance stops, then everything output since the last call. -/
def requireInputBatch (c : Config) (fuel : Nat) (x : Session) : Option (Reply × Session) :=
  match run c fuel x.core with
  | none        => none
  | some (r, t) => some (.batch (t.outLog.drop x.batchCursor) r, { x with core := t, batchCursor := t.outLog.length })

/-- The characters of output codes, if all are ASCII (R237). -/
def asciiLine (vs : List Word) : Option (List Char) :=
  if vs.all fun v => decide (0 ≤ v.toInt ∧ v.toInt ≤ 127) then some (vs.map fun v => Char.ofNat v.toNat) else none

/-- The pending output of a session up to its first newline, if there is one: the segment `seg` of R237. -/
def pendingLine (x : Session) : Option (List Word) :=
  let rest := x.core.outLog.drop x.lineCursor
  if rest.contains newline then some (rest.takeWhile (· != newline)) else none

/-- REQUIRE_ASCII_LINE (R237), for at most `rounds` turns of its loop, each RUN_TO_OUTPUT for at most `fuel` steps. -/
def requireAsciiLine (c : Config) (fuel : Nat) : Nat → Session → Option (Reply × Session)
  | 0, _ => none
  | rounds + 1, x =>
    match pendingLine x with
    | some seg =>
      let y := { x with lineCursor := x.lineCursor + seg.length + 1 }
      match asciiLine seg with
      | some text => some (.line text, y)
      | none      => some (.error .nonAscii, y)
    | none =>
      match runToOutput c fuel x.core with
      | none                => none
      | some (.value _, t)  => requireAsciiLine c fuel rounds { x with core := t }
      | some (.result r, t) => some (.stop r, { x with core := t })

/-- The commands on an existing instance (R220); LOAD and the creation of an instance from a snapshot are the platform's. -/
inductive Command where
  | step
  | run
  | runToOutput
  | feed (v : Word)
  | outputs
  | outLen
  | outRead (i : Int)
  | readAddr (addr : Word) (mode : Int)
  | writeAddr (addr v : Word) (mode : Int)
  | lastInputWas (v : Word)
  | snapshot
  | feedAscii (text : List Char)
  | requireInputBatch (echo : Bool)
  | requireAsciiLine
  deriving DecidableEq, Repr

/-- A command that changes the state or gives an error and changes nothing (R227). -/
def Session.update (x : Session) (r : Except HostError State) : Reply × Session :=
  match r with
  | .ok s    => (.ok, { x with core := s })
  | .error e => (.error e, x)

/-- One command (R220); `none` where it does not return within `fuel` (R118). The `echo` of REQUIRE_INPUT_BATCH changes nothing
(spec/00_scope.md R5 (c)). -/
def Session.command (c : Config) (fuel : Nat) (cmd : Command) (x : Session) : Option (Reply × Session) :=
  match cmd with
  | .step => let r := stepUnder c x.core; some (.response (.result r.1), { x with core := r.2 })
  | .run => (Machine.run c fuel x.core).map fun r => (.response (.result r.1), { x with core := r.2 })
  | .runToOutput => (Machine.runToOutput c fuel x.core).map fun r => (.response r.1, { x with core := r.2 })
  | .feed v => some (x.update (Machine.feed c v x.core))
  | .outputs => some (.words (Machine.outputs x.core), x)
  | .outLen => some (.count (Machine.outLen x.core), x)
  | .outRead i =>
    match Machine.outRead i x.core with
    | .ok v    => some (.value v, x)
    | .error e => some (.error e, x)
  | .readAddr addr mode =>
    match Machine.readAddr c addr mode x.core with
    | .ok (v, s) => some (.value v, { x with core := s })
    | .error e   => some (.error e, x)
  | .writeAddr addr v mode => some (x.update (Machine.writeAddr c addr v mode x.core))
  | .lastInputWas v => some (.bool (Machine.lastInputWas v x.core), x)
  | .snapshot => some (.snapshot x.core, x)
  | .feedAscii text => some (x.update (Machine.feedAscii c text x.core))
  | .requireInputBatch _ => Machine.requireInputBatch c fuel x
  | .requireAsciiLine => Machine.requireAsciiLine c fuel fuel x

end Sys2Proof.Machine
end

