-- ==== Sys2Proof/Machine/Platform.lean ====
section
/-! DEFINITION. A platform of independent instances (spec/60_exceptions.md R213, R221, R233; spec/10_state.md R35, R36). The instances
have no identifier the core knows: a slot's number is the host's name for it. -/

namespace Sys2Proof.Machine

/-- `N_INSTANCES` slots, each empty or holding an instance, and the copies SNAPSHOT has returned to the host, oldest first, which are
values of their own and no instance's state (R36). -/
structure Platform where
  slots : List (Option Session)
  held  : List State
  deriving DecidableEq, Repr

/-- A platform on which nothing is loaded. -/
def Platform.empty (c : Config) : Platform := ⟨List.replicate c.nInstances none, []⟩

/-- What a host may ask of a platform (R220): LOAD into a slot, a command on a slot's instance, a new instance in slot `into` from a
snapshot of the slot's as it stands, or a new instance in the slot from the copy an earlier SNAPSHOT returned, by its number (R233,
R206, spec/70_reset_and_hazards.md R252). -/
inductive Request where
  | load (text : List Char)
  | command (cmd : Command)
  | clone (into : Nat)
  | restore (copy : Nat)
  deriving DecidableEq, Repr

/-- What a platform answers: a command's reply, or a refusal where there is no such instance or slot (R221), or no such copy. -/
inductive Answer where
  | reply (r : Reply)
  | noInstance
  | noSnapshot
  deriving DecidableEq, Repr

/-- The copies a reply hands to the host: SNAPSHOT's one, and none of any other (R233). -/
def Reply.copies : Reply → List State
  | .snapshot s => [s]
  | .ok         => []
  | .response _ => []
  | .value _    => []
  | .words _    => []
  | .count _    => []
  | .bool _     => []
  | .batch _ _  => []
  | .line _     => []
  | .stop _     => []
  | .error _    => []

/-- The instance in a slot, if the slot exists and holds one. -/
def Platform.at (p : Platform) (j : Nat) : Option Session := (p.slots[j]?).join

/-- Put an instance into a slot. -/
def Platform.put (p : Platform) (j : Nat) (x : Session) : Platform := { p with slots := p.slots.set j (some x) }

/-- Keep the copies a reply hands to the host. -/
def Platform.keep (p : Platform) (r : Reply) : Platform := { p with held := p.held ++ r.copies }

/-- One request on slot `j`; `none` where the command does not return within `fuel` (R118). A LOAD that fails creates no instance
and leaves the slot as it was (R227, R250). DESIGN CHOICE: an instance made from a snapshot may be put into a slot that holds one,
its own among them, and replaces it, as R250 says of LOAD alone (log entry 18); its cursors are 0 (log entry 14). -/
def Platform.request (c : Config) (fuel : Nat) (j : Nat) (q : Request) (p : Platform) : Option (Answer × Platform) :=
  match q with
  | .load text =>
    if p.slots.length ≤ j then some (.noInstance, p)
    else match loadText c text with
      | .error e => some (.reply (.error e), p)
      | .ok s    => some (.reply .ok, p.put j (Session.fresh s))
  | .command cmd =>
    match p.at j with
    | none   => some (.noInstance, p)
    | some x => (x.command c fuel cmd).map fun r => (.reply r.1, (p.put j r.2).keep r.1)
  | .clone into =>
    match p.at j with
    | none   => some (.noInstance, p)
    | some x =>
      if p.slots.length ≤ into then some (.noInstance, p)
      else some (.reply .ok, p.put into (Session.fresh x.core))
  | .restore copy =>
    if p.slots.length ≤ j then some (.noInstance, p)
    else match p.held[copy]? with
      | none   => some (.noSnapshot, p)
      | some s => some (.reply .ok, p.put j (Session.fresh s))

end Sys2Proof.Machine
end

