-- ==== Sys2Proof/Safety.lean ====
section
/-! DEFINITION. The terms the statements use: what an operand reads or names, told as the spec's tables tell it and not by the functions
that compute it; what a step that commits nothing may change; and the invariant of an instance (spec/10_state.md R34). -/

namespace Sys2Proof.Machine

/-- The parameter names the address `a` (spec/30_encoding.md R74): the parameter word in Position mode, the exact sum with the
relative base in Relative mode. -/
def Names (s : State) (p : Param) (a : Int) : Prop :=
  (p.mode = .position ∧ a = p.word.toInt) ∨ (p.mode = .relative ∧ a = s.rb.toInt + p.word.toInt)

/-- Reading the operand gives `x` (R74, spec/40_controller.md R105): an Immediate parameter is its own value, any other reads an
existing cell. -/
def ReadsAs (c : Config) (s : State) (p : Param) (x : Word) : Prop :=
  (p.mode = .immediate ∧ x = p.word) ∨ ∃ n : Nat, Names s p n ∧ n < c.memLimit ∧ x = s.mem.get n

/-- The write operand is the existing cell `n` (R107). -/
def TargetIs (c : Config) (s : State) (p : Param) (n : Nat) : Prop := Names s p n ∧ n < c.memLimit

/-- What an address outside the memory raises while parameter `k` is resolved (spec/20_memory.md R51,
spec/60_exceptions.md R202). -/
def AddrFault (c : Config) (k : Nat) (a : Int) (r : Raise) : Prop :=
  (a < 0 ∧ r = ⟨.invalidAddress, some k, some a⟩) ∨ ((c.memLimit : Int) ≤ a ∧ r = ⟨.capacityExceeded, some k, some a⟩)

/-- Resolving parameter `k` raises `r` (R105, R107). -/
def ResolveFails (c : Config) (s : State) (k : Nat) (p : Param) (r : Raise) : Prop :=
  ∃ a, Names s p a ∧ AddrFault c k a r

/-- The first failing resolution among two read operands raises `r` (R205 (5)). -/
def ReadsFail (c : Config) (s : State) (a b : Param) (r : Raise) : Prop :=
  ResolveFails c s 1 a r ∨ ∃ x, ReadsAs c s a x ∧ ResolveFails c s 2 b r

/-- The first failing resolution among two read operands and a write operand raises `r` (R205 (5)). -/
def TernaryFails (c : Config) (s : State) (a b dst : Param) (r : Raise) : Prop :=
  ReadsFail c s a b r ∨ ∃ x y, ReadsAs c s a x ∧ ReadsAs c s b y ∧ ResolveFails c s 3 dst r

/-- `r` is the word `Fit(v)` gives (R109): `v` itself where it fits, and its residue modulo 2^64 under `OVF = wrap`. -/
def FitsAs (c : Config) (v : Int) (r : Word) : Prop :=
  (fits64 v ∧ r.toInt = v) ∨ (¬ fits64 v ∧ c.ovf = .wrap ∧ r.toInt % 2 ^ 64 = v % 2 ^ 64)

/-- `w` is a word of the row with opcode `op` and mode digits `ms` for parameters 1, 2, .. (R71, R80), whatever its other digits. -/
def IsWord (op : Nat) (ms : List Nat) (w : Word) : Prop :=
  0 ≤ w.toInt ∧ w.toInt % 100 = op ∧ ∀ k (h : k < ms.length), w.toInt / 10 ^ (k + 2) % 10 = (ms[k] : Nat)

/-- A value's header as R71's and R80's tables give it. -/
def HeaderOf (v : Nat) : Header → Prop
  | .add a b d => v % 100 = 1 ∧ v / 100 % 10 = a.toDigit ∧ v / 1000 % 10 = b.toDigit ∧ v / 10000 % 10 = d.toDigit ∧ d ≠ .immediate
  | .mul a b d => v % 100 = 2 ∧ v / 100 % 10 = a.toDigit ∧ v / 1000 % 10 = b.toDigit ∧ v / 10000 % 10 = d.toDigit ∧ d ≠ .immediate
  | .inp d => v % 100 = 3 ∧ v / 100 % 10 = d.toDigit ∧ d ≠ .immediate
  | .out a => v % 100 = 4 ∧ v / 100 % 10 = a.toDigit
  | .jt a b => v % 100 = 5 ∧ v / 100 % 10 = a.toDigit ∧ v / 1000 % 10 = b.toDigit
  | .jf a b => v % 100 = 6 ∧ v / 100 % 10 = a.toDigit ∧ v / 1000 % 10 = b.toDigit
  | .lt a b d => v % 100 = 7 ∧ v / 100 % 10 = a.toDigit ∧ v / 1000 % 10 = b.toDigit ∧ v / 10000 % 10 = d.toDigit ∧ d ≠ .immediate
  | .eq a b d => v % 100 = 8 ∧ v / 100 % 10 = a.toDigit ∧ v / 1000 % 10 = b.toDigit ∧ v / 10000 % 10 = d.toDigit ∧ d ≠ .immediate
  | .arb a => v % 100 = 9 ∧ v / 100 % 10 = a.toDigit
  | .halt => v % 100 = 99

/-- `NPARAMS` and `WPARAM` of R78 as rows: opcode, parameter count, index of the write parameter. -/
def opcodeRows : List (Nat × Nat × Option Nat) :=
  [(1, 3, some 3), (2, 3, some 3), (3, 1, some 1), (4, 1, none), (5, 2, none), (6, 2, none), (7, 3, some 3), (8, 3, some 3),
    (9, 1, none), (99, 0, none)]

/-- `t` is `s` but for the tape's extent, which has not shrunk: a step that suspended (R56, R112). -/
def SameButExtent (s t : State) : Prop := s.memLen ≤ t.memLen ∧ t = { s with memLen := t.memLen }

/-- `t` is `s` but for the fault register and the tape's extent, which has not shrunk: a step that faulted (R56, R112, R203). -/
def SameButFault (s t : State) : Prop := s.memLen ≤ t.memLen ∧ t = { s with memLen := t.memLen, fault := t.fault }

/-- The instance has halted or faulted: no step of it does anything (R100). -/
def Stopped (s : State) : Prop := s.halted = true ∨ s.fault.isSome = true

/-- A taken jump of `i` goes to `y` (spec/43_jumps.md R160, R161). -/
def JumpsTo (c : Config) (s : State) (i : Instr) (y : Word) : Prop :=
  ∃ a b x, ((i = .jt a b ∧ x.toInt ≠ 0) ∨ (i = .jf a b ∧ x.toInt = 0)) ∧ ReadsAs c s a x ∧ ReadsAs c s b y

/-- Parameter `k` of `i` is the first whose address is outside the memory, and `a` is that address (R105, R107, R205 (5)): those before
it, all read operands (R76), have read. -/
def FirstBadAddress (c : Config) (s : State) (i : Instr) (k : Nat) (a : Int) : Prop :=
  1 ≤ k ∧ (∃ p, i.params[k - 1]? = some p ∧ Names s p a) ∧ (a < 0 ∨ (c.memLimit : Int) ≤ a) ∧
  ∀ j p, j + 1 < k → i.params[j]? = some p → ∃ x, ReadsAs c s p x

/-- The exact result of `i`, whose operands all resolve, is outside `i64` (R140, R141, R180). -/
def Overflows (c : Config) (s : State) (i : Instr) : Prop :=
  (∃ a b d x y n, ReadsAs c s a x ∧ ReadsAs c s b y ∧ TargetIs c s d n ∧
    ((i = .add a b d ∧ ¬ fits64 (x.toInt + y.toInt)) ∨ (i = .mul a b d ∧ ¬ fits64 (x.toInt * y.toInt)))) ∨
  ∃ a x, i = .arb a ∧ ReadsAs c s a x ∧ ¬ fits64 (s.rb.toInt + x.toInt)

/-- The instruction word at `pc` exists and is `w`. -/
def Fetches (c : Config) (s : State) (w : Word) : Prop := s.pc < c.memLimit ∧ w = s.mem.get s.pc

/-- A word of row `row` whose modes before parameter `k`, one it has, are legal (R78). -/
def LegalBefore (w : Word) (row : Nat × Nat × Option Nat) (k : Nat) : Prop :=
  row ∈ opcodeRows ∧ 0 ≤ w.toInt ∧ w.toNat % 100 = row.1 ∧ 1 ≤ k ∧ k ≤ row.2.1 ∧ ∀ j, 1 ≤ j → j < k → digit w.toNat (j + 1) ≤ 2

/-- When a step of `s` raises a code, with which `param` and `addr`: R202's table, each row with R200's cause and R205's place. -/
def RaisedAs (c : Config) (s : State) (code : FaultCode) (param : Option Nat) (addr : Option Int) : Prop :=
  match code with
  | .unknownOpcode =>
    ∃ w, Fetches c s w ∧ param = none ∧
      ((w.toInt < 0 ∧ addr = none) ∨
        (0 ≤ w.toInt ∧ (w.toInt % 100 = 0 ∨ (10 ≤ w.toInt % 100 ∧ w.toInt % 100 ≤ 98)) ∧ addr = some (w.toInt % 100)))
  | .invalidAddress =>
    ∃ i k a, fetchInstr c s = .ok i ∧ param = some k ∧ addr = some a ∧ a < 0 ∧
      (FirstBadAddress c s i k a ∨ (k = 2 ∧ ∃ y, JumpsTo c s i y ∧ a = y.toInt))
  | .illegalWriteTarget =>
    ∃ w row k, Fetches c s w ∧ LegalBefore w row k ∧ row.2.2 = some k ∧ digit w.toNat (k + 1) = 1 ∧ param = some k ∧ addr = none
  | .illegalMode =>
    ∃ w row k, Fetches c s w ∧ LegalBefore w row k ∧ 3 ≤ digit w.toNat (k + 1) ∧ param = some k ∧
      addr = some (digit w.toNat (k + 1) : Nat)
  | .overflow => ∃ i, fetchInstr c s = .ok i ∧ Overflows c s i ∧ c.ovf = .fault ∧ param = none ∧ addr = none
  | .capacityExceeded =>
    (c.memLimit ≤ s.pc ∧ param = none ∧ addr = some (s.pc : Int)) ∨
    (∃ w h k, Fetches c s w ∧ decodeHeader w = .ok h ∧ 1 ≤ k ∧ k ≤ h.nparams ∧ s.pc + k = c.memLimit ∧ param = some k ∧
      addr = some ((s.pc + k : Nat) : Int)) ∨
    (∃ i k a, fetchInstr c s = .ok i ∧ FirstBadAddress c s i k a ∧ (c.memLimit : Int) ≤ a ∧ param = some k ∧ addr = some a) ∨
    ∃ p x n, fetchInstr c s = .ok (.out p) ∧ ReadsAs c s p x ∧ c.outCap = some n ∧ n ≤ s.outLog.length ∧ param = none ∧ addr = none

/-- The fault record is the one R202's table gives: `fpc` is `pc`, `word` the word there, if one could be fetched, and the code was
raised with this `param` and this `addr`. -/
def RecordOk (c : Config) (s : State) (r : FaultRecord) : Prop :=
  r.fpc = s.pc ∧
  (r.word = if s.pc < c.memLimit then some (s.mem.get s.pc) else none) ∧
  RaisedAs c s r.code r.param r.addr

/-- A token of a program text is a numeral of value `v` (spec/70_reset_and_hazards.md R251): blanks, an optional sign, at least one
decimal digit, blanks; the value is that of the digits, most significant first, negative after a minus sign. -/
def Numeral (t : List Char) (v : Int) : Prop :=
  ∃ pre sign ds post, t = pre ++ sign ++ ds ++ post ∧
    (∀ x ∈ pre ++ post, x = ' ' ∨ x = '\t' ∨ x = '\r' ∨ x = '\n') ∧
    (sign = [] ∨ sign = ['+'] ∨ sign = ['-']) ∧
    ds ≠ [] ∧ (∀ x ∈ ds, 48 ≤ x.toNat ∧ x.toNat ≤ 57) ∧
    v = (if sign = ['-'] then -1 else 1) * (Nat.ofDigits 10 (ds.map fun x => x.toNat - 48).reverse : Nat)

/-- A queue within its capacity. -/
def Within (cap : Option Nat) (n : Nat) : Prop := ∀ k ∈ cap, n ≤ k

/-- THE INVARIANT of an instance (R34, with R22, R24, R25, R29, R30 and R202): `pc` fits its register; memory is in canonical form
and holds nothing at or beyond the tape's length or the address space; the queues respect their capacities; a halted instance
has not faulted; and a fault record is the one R202 gives the step at `pc`. With `MEM_LIMIT = 2^63` the bound on `pc` is R22's;
under a smaller limit a taken jump may leave `pc` above it (spec/43_jumps.md R162; log entry 11). -/
def Inv (c : Config) (s : State) : Prop :=
  s.pc ≤ 2 ^ 63 ∧
  s.mem.wf = true ∧
  (∀ a, s.mem.get a ≠ Memory.fill → a < s.memLen ∧ a < c.memLimit) ∧
  Within c.inCap s.inFifo.length ∧
  Within c.outCap s.outLog.length ∧
  ¬ (s.halted = true ∧ s.fault.isSome = true) ∧
  ∀ r ∈ s.fault, RecordOk c s r

/-- The address a parameter names does not wrap: the exact sum with the relative base is a word's value. -/
def Rebasable (s : State) (p : Param) : Prop := p.mode = .relative → fits64 (s.rb.toInt + p.word.toInt)

/-- The Position parameter that names the address a Relative one names (spec/45_relbase.md R181); others are left. -/
def Param.rebase (s : State) (p : Param) : Param :=
  match p.mode with
  | .position  => p
  | .immediate => p
  | .relative  => ⟨.position, Word.ofInt (s.rb.toInt + p.word.toInt)⟩

/-- An instruction with every Relative parameter replaced by the Position parameter of the same address (R181). -/
def rebase (s : State) : Instr → Instr
  | .add a b d => .add (Param.rebase s a) (Param.rebase s b) (Param.rebase s d)
  | .mul a b d => .mul (Param.rebase s a) (Param.rebase s b) (Param.rebase s d)
  | .inp d => .inp (Param.rebase s d)
  | .out a => .out (Param.rebase s a)
  | .jt a b => .jt (Param.rebase s a) (Param.rebase s b)
  | .jf a b => .jf (Param.rebase s a) (Param.rebase s b)
  | .lt a b d => .lt (Param.rebase s a) (Param.rebase s b) (Param.rebase s d)
  | .eq a b d => .eq (Param.rebase s a) (Param.rebase s b) (Param.rebase s d)
  | .arb a => .arb (Param.rebase s a)
  | .halt => .halt

end Sys2Proof.Machine
end

