-- ==== Sys2Proof/Certificates/Slice0/Obligations.lean ====
section
/-! DEFINITION. The statements for the provers. Those about an instruction hold for every parameter value of spec/00_scope.md R6 unless they
say hardware; `c = Config.hardware → exec …` then says that the hardware's own meaning answers that next state. -/

open Sys2Proof Sys2Proof.Machine

/-! ### Encoding and decoding -/

/-- Instruction words written out from the spec's encodings decode to the instructions they stand for, one per family
(spec/30_encoding.md R80, R85; spec/95_test_vectors.md 2.1). -/
def Obligations.SampleWordsDecode : Prop :=
  decode [21001, 9, -1, 3] = .ok (.add ⟨.position, 9⟩ ⟨.immediate, -1⟩ ⟨.relative, 3⟩, []) ∧
  decode [1102, 5, 6, 7] = .ok (.mul ⟨.immediate, 5⟩ ⟨.immediate, 6⟩ ⟨.position, 7⟩, []) ∧
  decode [203, 1] = .ok (.inp ⟨.relative, 1⟩, []) ∧
  decode [104, -5, 99] = .ok (.out ⟨.immediate, -5⟩, [99]) ∧
  decode [1105, 1, 7] = .ok (.jt ⟨.immediate, 1⟩ ⟨.immediate, 7⟩, []) ∧
  decode [2006, 4, 5] = .ok (.jf ⟨.position, 4⟩ ⟨.relative, 5⟩, []) ∧
  decode [1107, 3, 5, 0] = .ok (.lt ⟨.immediate, 3⟩ ⟨.immediate, 5⟩ ⟨.position, 0⟩, []) ∧
  decode [21108, 7, 7, 2] = .ok (.eq ⟨.immediate, 7⟩ ⟨.immediate, 7⟩ ⟨.relative, 2⟩, []) ∧
  decode [209, -1] = .ok (.arb ⟨.relative, -1⟩, []) ∧
  decode [99] = .ok (.halt, [])

/-- The decoder reads the opcode from the low two decimal digits and each mode from its own digit, for every non-negative word and
every row of the table (R71, R78, R80), and a word decodes to a header exactly where the table gives it that header. -/
def Obligations.DecodeReadsDecimalDigits : Prop :=
  ∀ (w : Word) (h : Header), decodeHeader w = .ok h ↔ 0 ≤ w.toInt ∧ HeaderOf w.toNat h

/-- UnknownOpcode is raised exactly for opcode values 0 and 10 to 98 and for every negative word (R79). -/
def Obligations.UnknownOpcodeExactly : Prop :=
  ∀ w : Word,
    (∃ r, decodeHeader w = .error r ∧ r.code = .unknownOpcode) ↔
      w.toInt < 0 ∨ w.toInt % 100 = 0 ∨ (10 ≤ w.toInt % 100 ∧ w.toInt % 100 ≤ 98)

/-- The parameters are checked in ascending order: where the modes before parameter `k` are legal, a digit 3 to 9 for it raises
IllegalMode with that digit, and digit 1 raises IllegalWriteTarget if it is the write parameter (R75 to R78). The choice of a
fault for digits 3 to 9 is the spec's decision D5. -/
def Obligations.FirstBadModeFaults : Prop :=
  ∀ (w : Word), 0 ≤ w.toInt → ∀ row ∈ opcodeRows, w.toNat % 100 = row.1 →
    ∀ k, 1 ≤ k → k ≤ row.2.1 → (∀ j, 1 ≤ j → j < k → digit w.toNat (j + 1) ≤ 2) →
      (3 ≤ digit w.toNat (k + 1) →
        decodeHeader w = .error ⟨.illegalMode, some k, some (digit w.toNat (k + 1) : Nat)⟩) ∧
      (row.2.2 = some k → digit w.toNat (k + 1) = 1 → decodeHeader w = .error ⟨.illegalWriteTarget, some k, none⟩)

/-- Digits the opcode gives no role do not matter: two non-negative words that agree in the opcode and in the mode digits of the
parameters the opcode has decode alike (R75, R82; the spec's decision D6). -/
def Obligations.IgnoredDigitsDoNotMatter : Prop :=
  ∀ (v w : Word), 0 ≤ v.toInt → 0 ≤ w.toInt → ∀ row ∈ opcodeRows,
    v.toNat % 10 ^ (row.2.1 + 2) = w.toNat % 10 ^ (row.2.1 + 2) → v.toNat % 100 = row.1 → decodeHeader v = decodeHeader w

/-- DECODE AND ENCODE AGREE: every well-formed instruction, with every mode its parameters may have and every parameter word,
decodes from its canonical encoding (R83), whatever words follow. -/
def Obligations.DecodeOfEncode : Prop :=
  ∀ (i : Instr) (rest : List Word), WellFormed i = true → decode (encode i ++ rest) = .ok (i, rest)

/-- What decodes is a well-formed instruction, `length` words long, with its parameter words unchanged (R70, R76, R77). -/
def Obligations.DecodedIsWellFormed : Prop :=
  ∀ (ws rest : List Word) (i : Instr), decode ws = .ok (i, rest) →
    WellFormed i = true ∧ ∃ w, ws = w :: (i.params.map (·.word) ++ rest)

/-! ### The step -/

/-- A STEP RUNS THE DECODED INSTRUCTION: where an instance has neither halted nor faulted and the words at `pc` decode to `i`, all of
whose words exist, the hardware's step is `exec i`, with nothing added around it (R102). -/
def Obligations.StepRunsDecodedInstruction : Prop :=
  ∀ (s : State) (i : Instr) (rest : List Word),
    s.halted = false → s.fault = none → s.pc + i.length ≤ Config.hardware.memLimit →
    decode [wordAt s 0, wordAt s 1, wordAt s 2, wordAt s 3] = .ok (i, rest) → step s = exec i s

/-- What faults before an instruction is executed, in this order: the fetch of the instruction word at or above `MEM_LIMIT`, the
decoder, the smallest parameter index whose word is at or above `MEM_LIMIT` (R103, R108, R205). That such a fetch is a fault is
the spec's decision D3. -/
def Obligations.FetchFaultsInOrder : Prop :=
  ∀ (c : Config) (s : State), s.halted = false → s.fault = none →
    (c.memLimit ≤ s.pc → stepUnder c s = takeFault c s ⟨.capacityExceeded, none, some (s.pc : Int)⟩) ∧
    (s.pc < c.memLimit → ∀ r, decodeHeader (wordAt s 0) = .error r → stepUnder c s = takeFault c s r) ∧
    (s.pc < c.memLimit → ∀ h k, decodeHeader (wordAt s 0) = .ok h → 1 ≤ k → k ≤ h.nparams → s.pc + k = c.memLimit →
      stepUnder c s = takeFault c s ⟨.capacityExceeded, some k, some ((s.pc + k : Nat) : Int)⟩)

/-- FAULT ENTRY: taking a fault leaves the record (code, pc, fetched word, parameter, address) in the fault register and everything
else as it was, the pc too, but for the tape's extent, which is free at or above its old value (R202, R203; the spec's decisions
D8 and D9; log entry 5). -/
def Obligations.TakingAFault : Prop :=
  ∀ (c : Config) (s : State) (r : Raise), ∃ n, s.memLen ≤ n ∧
    takeFault c s r =
      (.faulted r.code,
        { s with
          memLen := n
          fault := some ⟨r.code, s.pc, if s.pc < c.memLimit then some (s.mem.get s.pc) else none, r.param, r.addr⟩ })

/-- Nothing is committed by a step that faults or suspends: the state after it is the state before it but for the fault register
and the extent (R112; the spec's decisions D10 and D31). -/
def Obligations.OnlyCommittedStepsWrite : Prop :=
  ∀ (c : Config) (s : State), s.halted = false → s.fault = none →
    (∀ f, (stepUnder c s).1 = .faulted f →
      SameButFault s (stepUnder c s).2 ∧ ∃ r, (stepUnder c s).2.fault = some r ∧ r.code = f ∧ r.fpc = s.pc) ∧
    ((stepUnder c s).1 = .awaitingInput → SameButExtent s (stepUnder c s).2) ∧
    ((stepUnder c s).1 = .running → (stepUnder c s).2.fault = none ∧ (stepUnder c s).2.halted = false) ∧
    ((stepUnder c s).1 = .halted → (stepUnder c s).2.fault = none ∧ (stepUnder c s).2.halted = true)

/-- The program counter after a step, by its result (R110): a running step and HALT leave `pc + 1 + n`, computed from the `pc` at
the step's start, but for a taken jump, which leaves its target; a step that suspends or faults leaves it. -/
def Obligations.ProgramCounterAfterStep : Prop :=
  ∀ (c : Config) (s : State), s.halted = false → s.fault = none →
    (∀ i, fetchInstr c s = .ok i → (stepUnder c s).1 = .running ∨ (stepUnder c s).1 = .halted →
      (∀ y, JumpsTo c s i y → ((stepUnder c s).2.pc : Int) = y.toInt) ∧
      ((¬ ∃ y, JumpsTo c s i y) → (stepUnder c s).2.pc = s.pc + i.length)) ∧
    ((stepUnder c s).1 = .awaitingInput ∨ (∃ f, (stepUnder c s).1 = .faulted f) → (stepUnder c s).2.pc = s.pc)

/-- Halting is idempotent (R191): a halted instance's every RUN and RUN_TO_OUTPUT returns Halted and changes nothing; a value fed to it
is appended to the FIFO and stays there. -/
def Obligations.HaltingIsIdempotent : Prop :=
  ∀ (c : Config) (s : State), s.halted = true → s.fault = none →
    stepUnder c s = (.halted, s) ∧
    (∀ fuel, run c (fuel + 1) s = some (.halted, s)) ∧
    (∀ fuel, runToOutput c (fuel + 1) s = some (.result .halted, s)) ∧
    outputs s = s.outLog ∧
    ∀ v t, feed c v s = .ok t →
      t = { s with inFifo := s.inFifo ++ [v] } ∧ ∀ fuel, run c (fuel + 1) t = some (.halted, t)

/-- A fault is fatal and sticky (R204): every later step, RUN and RUN_TO_OUTPUT returns Faulted with the same code and changes nothing,
and no command but LOAD changes the fault register, which a LOAD leaves empty. -/
def Obligations.FaultIsFatal : Prop :=
  ∀ (c : Config) (s : State) (r : FaultRecord), s.fault = some r →
    stepUnder c s = (.faulted r.code, s) ∧
    step s = .next s ∧
    (∀ fuel, run c (fuel + 1) s = some (.faulted r.code, s)) ∧
    (∀ fuel, runToOutput c (fuel + 1) s = some (.result (.faulted r.code), s)) ∧
    (∀ fuel cmd b l reply y, Session.command c fuel cmd ⟨s, b, l⟩ = some (reply, y) → y.core.fault = some r) ∧
    ∀ text t, loadText c text = .ok t → t.fault = none

/-! ### Memory and operands -/

/-- `MemRead(a, 1)` (R54): a negative address raises InvalidAddress, one at or above `MEM_LIMIT` CapacityExceeded, and any other gives
the word there and grows the tape to hold it. -/
def Obligations.MemReadRule : Prop :=
  ∀ (c : Config) (k : Option Nat) (a : Int) (s : State),
    (a < 0 → memRead c k a s = .error ⟨.invalidAddress, k, some a⟩) ∧
    (0 ≤ a → (c.memLimit : Int) ≤ a → memRead c k a s = .error ⟨.capacityExceeded, k, some a⟩) ∧
    (0 ≤ a → a < c.memLimit →
      memRead c k a s = .ok (s.mem.get a.toNat, { s with memLen := max s.memLen (a.toNat + 1) }))

/-- `MemWrite(a, 1, v)` (R55), read back by `MemRead`: the checks of a read, and otherwise `v` is what the address then reads, every
other address reads as before, and no other state changes but the extent. That the list of cells stays canonical is the model's own
notion (log entry 2, DESIGN CHOICE). -/
def Obligations.MemWriteReadsBack : Prop :=
  ∀ (c : Config) (k : Option Nat) (a : Int) (v : Word) (s : State), s.mem.wf = true →
    (a < 0 → memWrite c k a v s = .error ⟨.invalidAddress, k, some a⟩) ∧
    (0 ≤ a → (c.memLimit : Int) ≤ a → memWrite c k a v s = .error ⟨.capacityExceeded, k, some a⟩) ∧
    (0 ≤ a → a < c.memLimit → ∃ t, memWrite c k a v s = .ok t ∧ t.mem.wf = true ∧
      t = { s with mem := t.mem, memLen := max s.memLen (a.toNat + 1) } ∧
      (∃ u, memRead c k a t = .ok (v, u)) ∧ ∀ b, b ≠ a.toNat → t.mem.get b = s.mem.get b)

/-- `ResolveRead` by mode (R105): Position reads at the parameter word, Immediate is the parameter word, Relative reads at the exact
sum with the relative base; a fault inside records the parameter's index. -/
def Obligations.ReadOperandByMode : Prop :=
  ∀ (c : Config) (k : Nat) (p : Word) (s : State),
    readOperand c k ⟨.position, p⟩ s = (memRead c (some k) p.toInt s).map Prod.fst ∧
    readOperand c k ⟨.immediate, p⟩ s = .ok p ∧
    readOperand c k ⟨.relative, p⟩ s = (memRead c (some k) (s.rb.toInt + p.toInt) s).map Prod.fst

/-- A store is seen by the very next fetch (R65, R255): where a running step stored at the cell its successor is fetched from, the next
step decodes the word stored there and not the one loaded. -/
def Obligations.StoreIsFetchedNext : Prop :=
  ∀ (c : Config) (s t : State) (i : Instr) (d : Param) (n : Nat),
    s.mem.wf = true → fetchInstr c s = .ok i → i.target = some d → TargetIs c s d n → stepUnder c s = (.running, t) → t.pc = n →
    ∃ r : Word, t.mem = s.mem.set n r ∧ wordAt t 0 = r ∧
      (∀ e, decodeHeader r = .error e → stepUnder c t = takeFault c t e) ∧
      ∀ h, decodeHeader r = .ok h → n + h.nparams < c.memLimit → stepUnder c t = execUnder c (h.withParams (wordAt t)) t

/-- The tape's extent after a committed step is the least that holds the old tape, the instruction's words and every cell its
parameters name (R30, R56). -/
def Obligations.ExtentAfterCommit : Prop :=
  ∀ (c : Config) (s : State) (i : Instr), s.halted = false → s.fault = none → fetchInstr c s = .ok i →
    (stepUnder c s).1 = .running ∨ (stepUnder c s).1 = .halted →
    ∀ k, (stepUnder c s).2.memLen ≤ k ↔
      s.memLen ≤ k ∧ s.pc + i.length ≤ k ∧ ∀ p ∈ i.params, ∀ a, Names s p a → a < k

/-! ### The instructions -/

/-- ADD (R140): words `x…CBA01` decode to it, with an Immediate target raising IllegalWriteTarget; where its operands resolve it stores
`Fit(a + b)` at the target and advances by 4; it raises Overflow where the sum does not fit and `OVF = fault`; it takes the first
resolution fault of parameters 1, 2, 3; and the rule's example. -/
def Obligations.AddRule : Prop :=
  (∀ (w : Word) (a b d : Mode), IsWord 1 [a.toDigit, b.toDigit, d.toDigit] w →
    decodeHeader w = if d = .immediate then .error ⟨.illegalWriteTarget, some 3, none⟩ else .ok (.add a b d)) ∧
  (∀ (c : Config) (s : State) (a b dst : Param),
    (∀ x y n r, ReadsAs c s a x → ReadsAs c s b y → TargetIs c s dst n → FitsAs c (x.toInt + y.toInt) r →
      let t := { s with mem := s.mem.set n r, memLen := extentAfter s [a, b, dst], pc := s.pc + 4 }
      execUnder c (.add a b dst) s = (.running, t) ∧ (c = Config.hardware → exec (.add a b dst) s = .next t)) ∧
    (∀ x y n, ReadsAs c s a x → ReadsAs c s b y → TargetIs c s dst n → ¬ fits64 (x.toInt + y.toInt) → c.ovf = .fault →
      execUnder c (.add a b dst) s = takeFault c s ⟨.overflow, none, none⟩) ∧
    (∀ r, TernaryFails c s a b dst r → execUnder c (.add a b dst) s = takeFault c s r)) ∧
  ∃ t, run Config.hardware 2 (State.load [1, 0, 0, 0, 99]) = some (.halted, t) ∧ t.mem.get 0 = 2

/-- MUL (R141): as ADD with the exact product, and its example, whose cell 3 holds 6 (spec/90_conflicts.md C4). -/
def Obligations.MulRule : Prop :=
  (∀ (w : Word) (a b d : Mode), IsWord 2 [a.toDigit, b.toDigit, d.toDigit] w →
    decodeHeader w = if d = .immediate then .error ⟨.illegalWriteTarget, some 3, none⟩ else .ok (.mul a b d)) ∧
  (∀ (c : Config) (s : State) (a b dst : Param),
    (∀ x y n r, ReadsAs c s a x → ReadsAs c s b y → TargetIs c s dst n → FitsAs c (x.toInt * y.toInt) r →
      let t := { s with mem := s.mem.set n r, memLen := extentAfter s [a, b, dst], pc := s.pc + 4 }
      execUnder c (.mul a b dst) s = (.running, t) ∧ (c = Config.hardware → exec (.mul a b dst) s = .next t)) ∧
    (∀ x y n, ReadsAs c s a x → ReadsAs c s b y → TargetIs c s dst n → ¬ fits64 (x.toInt * y.toInt) → c.ovf = .fault →
      execUnder c (.mul a b dst) s = takeFault c s ⟨.overflow, none, none⟩) ∧
    (∀ r, TernaryFails c s a b dst r → execUnder c (.mul a b dst) s = takeFault c s r)) ∧
  ∃ t, run Config.hardware 2 (State.load [2, 3, 0, 3, 99]) = some (.halted, t) ∧ t.mem.get 3 = 6

/-- LT (R170): stores exactly 1 where `a < b` in the signed order and exactly 0 otherwise, and advances by 4; no Overflow; its
resolution faults; and its example. -/
def Obligations.LessThanRule : Prop :=
  (∀ (w : Word) (a b d : Mode), IsWord 7 [a.toDigit, b.toDigit, d.toDigit] w →
    decodeHeader w = if d = .immediate then .error ⟨.illegalWriteTarget, some 3, none⟩ else .ok (.lt a b d)) ∧
  (∀ (c : Config) (s : State) (a b dst : Param),
    (∀ x y n, ReadsAs c s a x → ReadsAs c s b y → TargetIs c s dst n →
      let r : Word := if x.toInt < y.toInt then 1 else 0
      let t := { s with mem := s.mem.set n r, memLen := extentAfter s [a, b, dst], pc := s.pc + 4 }
      execUnder c (.lt a b dst) s = (.running, t) ∧ (c = Config.hardware → exec (.lt a b dst) s = .next t)) ∧
    (∀ r, TernaryFails c s a b dst r → execUnder c (.lt a b dst) s = takeFault c s r)) ∧
  ∃ t, run Config.hardware 2 (State.load [1107, 3, 5, 0, 99]) = some (.halted, t) ∧ t.mem.get 0 = 1

/-- EQ (R171): stores exactly 1 where the two 64-bit values are equal, whatever modes gave them, and exactly 0 otherwise, and advances
by 4; its resolution faults; and its examples. -/
def Obligations.EqualsRule : Prop :=
  (∀ (w : Word) (a b d : Mode), IsWord 8 [a.toDigit, b.toDigit, d.toDigit] w →
    decodeHeader w = if d = .immediate then .error ⟨.illegalWriteTarget, some 3, none⟩ else .ok (.eq a b d)) ∧
  (∀ (c : Config) (s : State) (a b dst : Param),
    (∀ x y n, ReadsAs c s a x → ReadsAs c s b y → TargetIs c s dst n →
      let r : Word := if x = y then 1 else 0
      let t := { s with mem := s.mem.set n r, memLen := extentAfter s [a, b, dst], pc := s.pc + 4 }
      execUnder c (.eq a b dst) s = (.running, t) ∧ (c = Config.hardware → exec (.eq a b dst) s = .next t)) ∧
    (∀ r, TernaryFails c s a b dst r → execUnder c (.eq a b dst) s = takeFault c s r)) ∧
  (∃ t, run Config.hardware 2 (State.load [1108, 7, 7, 0, 99]) = some (.halted, t) ∧ t.mem.get 0 = 1) ∧
  ∃ t, run Config.hardware 2 (State.load [1108, 7, 8, 0, 99]) = some (.halted, t) ∧ t.mem.get 0 = 0

/-- IN with a value waiting (R150): the head leaves the FIFO, is stored unchanged at the target and in `last_input`, and `pc` advances
by 2; and the rule's example. -/
def Obligations.InputConsumesHead : Prop :=
  (∀ (c : Config) (s : State) (dst : Param) (n : Nat) (v : Word) (rest : List Word),
    TargetIs c s dst n → s.inFifo = v :: rest →
      let t := { s with
        mem := s.mem.set n v, memLen := extentAfter s [dst], pc := s.pc + 2, inFifo := rest, lastInput := some v }
      execUnder c (.inp dst) s = (.running, t) ∧ (c = Config.hardware → exec (.inp dst) s = .next t)) ∧
  ∃ t, stepUnder Config.hardware { State.load [3, 0, 99] with inFifo := [42] } = (.running, t) ∧
    t.mem.get 0 = 42 ∧ t.inFifo = [] ∧ t.lastInput = some 42 ∧ t.pc = 2 ∧ (stepUnder Config.hardware t).1 = .halted

/-- IN with an empty FIFO (R151): where its target resolves, the step reports AwaitingInput and no register, queue or memory cell
changes, `pc` still addressing the IN instruction. -/
def Obligations.InputSuspendsOnEmpty : Prop :=
  (∀ (c : Config) (s : State) (dst : Param) (n : Nat), TargetIs c s dst n → s.inFifo = [] →
    (execUnder c (.inp dst) s).1 = .awaitingInput ∧ SameButExtent s (execUnder c (.inp dst) s).2 ∧
    (c = Config.hardware → ∃ t, exec (.inp dst) s = .next t ∧ SameButExtent s t)) ∧
  ∀ (c : Config) (s : State) (i : Instr), (execUnder c i s).1 = .awaitingInput → s.inFifo = [] ∧ ∃ dst, i = .inp dst

/-- A faulty IN faults whether or not the FIFO is empty: its decode and resolution come first (R150, R205; the spec's decision D12). -/
def Obligations.FaultyInputNeverWaits : Prop :=
  (∀ (w : Word), IsWord 3 [1] w → decodeHeader w = .error ⟨.illegalWriteTarget, some 1, none⟩) ∧
  ∀ (c : Config) (s : State) (dst : Param) (r : Raise), ResolveFails c s 1 dst r →
    execUnder c (.inp dst) s = takeFault c s r ∧ execUnder c (.inp dst) { s with inFifo := [] } = takeFault c { s with inFifo := [] } r

/-- OUT (R152): where its operand resolves and the log has room it appends the value and advances by 2; a full log, possible only with a
finite `OUT_CAP` (the spec's decision D14), raises CapacityExceeded with no address; its resolution fault; and its examples. -/
def Obligations.OutputRule : Prop :=
  (∀ (c : Config) (s : State) (a : Param),
    (∀ x, ReadsAs c s a x → (∀ k ∈ c.outCap, s.outLog.length < k) →
      let t := { s with memLen := extentAfter s [a], pc := s.pc + 2, outLog := s.outLog ++ [x] }
      execUnder c (.out a) s = (.running, t) ∧ (c = Config.hardware → exec (.out a) s = .next t)) ∧
    (∀ x k, ReadsAs c s a x → c.outCap = some k → k ≤ s.outLog.length →
      execUnder c (.out a) s = takeFault c s ⟨.capacityExceeded, none, none⟩) ∧
    (∀ r, ResolveFails c s 1 a r → execUnder c (.out a) s = takeFault c s r)) ∧
  (∃ t, run Config.hardware 2 (State.load [104, -5, 99]) = some (.halted, t) ∧ t.outLog = [-5]) ∧
  ∃ t, run Config.hardware 2 (State.load [4, 0, 99]) = some (.halted, t) ∧ t.outLog = [4]

/-- JT (R160): both operands are resolved first, faulting as they do; then a non-zero condition goes to a non-negative target, or
raises InvalidAddress at the jump, and a zero condition advances by 3 whatever the target; a target that reads 0 is taken and its
fetch then faults UnknownOpcode; and its example. -/
def Obligations.JumpIfTrueRule : Prop :=
  (∀ (w : Word) (a b : Mode), IsWord 5 [a.toDigit, b.toDigit] w → decodeHeader w = .ok (.jt a b)) ∧
  (∀ (c : Config) (s : State) (a b : Param),
    (∀ x y, ReadsAs c s a x → ReadsAs c s b y → x.toInt ≠ 0 → 0 ≤ y.toInt →
      let t := { s with memLen := extentAfter s [a, b], pc := y.toInt.toNat }
      execUnder c (.jt a b) s = (.running, t) ∧ (c = Config.hardware → exec (.jt a b) s = .next t) ∧
      (s.halted = false → s.fault = none → y.toInt < c.memLimit → s.mem.get y.toInt.toNat = 0 →
        stepUnder c t = takeFault c t ⟨.unknownOpcode, none, some 0⟩)) ∧
    (∀ x y, ReadsAs c s a x → ReadsAs c s b y → x.toInt = 0 →
      let t := { s with memLen := extentAfter s [a, b], pc := s.pc + 3 }
      execUnder c (.jt a b) s = (.running, t) ∧ (c = Config.hardware → exec (.jt a b) s = .next t)) ∧
    (∀ x y, ReadsAs c s a x → ReadsAs c s b y → x.toInt ≠ 0 → y.toInt < 0 →
      execUnder c (.jt a b) s = takeFault c s ⟨.invalidAddress, some 2, some y.toInt⟩) ∧
    (∀ r, ReadsFail c s a b r → execUnder c (.jt a b) s = takeFault c s r)) ∧
  ∃ t, run Config.hardware 2 (State.load [1105, 1, 7, 0, 0, 0, 0, 99]) = some (.halted, t) ∧ t.pc = 8

/-- JF (R161): as JT, taken on a zero condition; every non-zero one, negative included, falls through; and its example. -/
def Obligations.JumpIfFalseRule : Prop :=
  (∀ (w : Word) (a b : Mode), IsWord 6 [a.toDigit, b.toDigit] w → decodeHeader w = .ok (.jf a b)) ∧
  (∀ (c : Config) (s : State) (a b : Param),
    (∀ x y, ReadsAs c s a x → ReadsAs c s b y → x.toInt = 0 → 0 ≤ y.toInt →
      let t := { s with memLen := extentAfter s [a, b], pc := y.toInt.toNat }
      execUnder c (.jf a b) s = (.running, t) ∧ (c = Config.hardware → exec (.jf a b) s = .next t) ∧
      (s.halted = false → s.fault = none → y.toInt < c.memLimit → s.mem.get y.toInt.toNat = 0 →
        stepUnder c t = takeFault c t ⟨.unknownOpcode, none, some 0⟩)) ∧
    (∀ x y, ReadsAs c s a x → ReadsAs c s b y → x.toInt ≠ 0 →
      let t := { s with memLen := extentAfter s [a, b], pc := s.pc + 3 }
      execUnder c (.jf a b) s = (.running, t) ∧ (c = Config.hardware → exec (.jf a b) s = .next t)) ∧
    (∀ x y, ReadsAs c s a x → ReadsAs c s b y → x.toInt = 0 → y.toInt < 0 →
      execUnder c (.jf a b) s = takeFault c s ⟨.invalidAddress, some 2, some y.toInt⟩) ∧
    (∀ r, ReadsFail c s a b r → execUnder c (.jf a b) s = takeFault c s r)) ∧
  ∃ t, run Config.hardware 2 (State.load [1106, 0, 4, 0, 99]) = some (.halted, t) ∧ t.pc = 5

/-- ARB (R180): the base becomes `Fit(rb + a)`, a Relative operand being read with the old base, and `pc` advances by 2; it raises
Overflow where the sum does not fit and `OVF = fault`; its resolution fault; and its example. -/
def Obligations.AdjustRelativeBaseRule : Prop :=
  (∀ (w : Word) (a : Mode), IsWord 9 [a.toDigit] w → decodeHeader w = .ok (.arb a)) ∧
  (∀ (c : Config) (s : State) (a : Param),
    (∀ x r, ReadsAs c s a x → FitsAs c (s.rb.toInt + x.toInt) r →
      let t := { s with memLen := extentAfter s [a], pc := s.pc + 2, rb := r }
      execUnder c (.arb a) s = (.running, t) ∧ (c = Config.hardware → exec (.arb a) s = .next t)) ∧
    (∀ x, ReadsAs c s a x → ¬ fits64 (s.rb.toInt + x.toInt) → c.ovf = .fault →
      execUnder c (.arb a) s = takeFault c s ⟨.overflow, none, none⟩) ∧
    (∀ r, ResolveFails c s 1 a r → execUnder c (.arb a) s = takeFault c s r)) ∧
  (∃ t, stepUnder Config.hardware { State.load [109, 19, 99] with rb := 2000 } = (.running, t) ∧ t.rb = 2019) ∧
  ∀ s : State, s.rb = 2019 →
    ∃ t, execUnder Config.hardware (.out ⟨.relative, -34⟩) s = (.running, t) ∧ t.outLog = s.outLog ++ [s.mem.get 1985]

/-- HALT (R190): every non-negative word ending in 99 is HALT, whatever its other digits; it sets `halted`, advances `pc` by 1
(spec/90_conflicts.md C8) and returns Halted, after which every step returns Halted and changes nothing; and its example. -/
def Obligations.HaltRule : Prop :=
  (∀ w : Word, IsWord 99 [] w → decodeHeader w = .ok .halt) ∧
  (∀ (c : Config) (s : State),
    let t := { s with memLen := max s.memLen (s.pc + 1), pc := s.pc + 1, halted := true }
    execUnder c .halt s = (.halted, t) ∧ exec .halt s = .next t ∧ (s.fault = none → stepUnder c t = (.halted, t))) ∧
  ∃ t, stepUnder Config.hardware (State.load [99]) = (.halted, t) ∧ t.halted = true ∧ t.pc = 1 ∧ t.outLog = []

/-! ### Frames, on the hardware -/

/-- What ADD, MUL, LT and EQ leave: the relative base, both queues, the halted flag, the last input and every memory cell but the write
operand's; the fault register too, unless the step faulted, and then the memory and `pc` as well (R111, R112). -/
def Obligations.FrameOfTernary : Prop :=
  ∀ (a b dst : Param) (i : Instr) (s t : State),
    i = .add a b dst ∨ i = .mul a b dst ∨ i = .lt a b dst ∨ i = .eq a b dst → exec i s = .next t →
    t.rb = s.rb ∧ t.inFifo = s.inFifo ∧ t.outLog = s.outLog ∧ t.halted = s.halted ∧ t.lastInput = s.lastInput ∧
    (t.fault = s.fault ∨ (t.fault.isSome = true ∧ t.mem = s.mem ∧ t.pc = s.pc)) ∧
    (∀ n, writeTarget Config.hardware 3 dst s = .ok n → ∀ m, m ≠ n → t.mem.get m = s.mem.get m) ∧
    (∀ r, writeTarget Config.hardware 3 dst s = .error r → ∀ m, t.mem.get m = s.mem.get m)

/-- What IN leaves: the relative base, the log, the halted flag and every memory cell but the write operand's; and everything but the
fault register and the extent where it suspends or faults (R111, R112). -/
def Obligations.FrameOfInput : Prop :=
  ∀ (dst : Param) (s t : State), exec (.inp dst) s = .next t →
    t.rb = s.rb ∧ t.outLog = s.outLog ∧ t.halted = s.halted ∧
    (t.fault = s.fault ∨ (t.fault.isSome = true ∧ t.mem = s.mem ∧ t.pc = s.pc)) ∧
    (s.inFifo = [] → t.mem = s.mem ∧ t.inFifo = [] ∧ t.lastInput = s.lastInput ∧ t.pc = s.pc) ∧
    (∀ n, writeTarget Config.hardware 1 dst s = .ok n → t.fault = s.fault ∧ ∀ m, m ≠ n → t.mem.get m = s.mem.get m) ∧
    (∀ r, writeTarget Config.hardware 1 dst s = .error r →
      t.mem = s.mem ∧ t.inFifo = s.inFifo ∧ t.lastInput = s.lastInput ∧ t.pc = s.pc)

/-- What OUT, JT, JF, ARB and HALT leave: every memory cell, the input FIFO and the last input; the log but for OUT's append; the
relative base but for ARB; the halted flag but for HALT; the fault register unless the step faulted, and then all of these
(R111, R112). -/
def Obligations.FrameOfNonStoring : Prop :=
  ∀ (a b : Param) (i : Instr) (s t : State),
    i = .out a ∨ i = .jt a b ∨ i = .jf a b ∨ i = .arb a ∨ i = .halt → exec i s = .next t →
    (∀ m, t.mem.get m = s.mem.get m) ∧ t.inFifo = s.inFifo ∧ t.lastInput = s.lastInput ∧
    (i ≠ .out a → t.outLog = s.outLog) ∧ (i ≠ .arb a → t.rb = s.rb) ∧ (i ≠ .halt → t.halted = s.halted) ∧
    (t.fault = s.fault ∨
      (t.fault.isSome = true ∧ t.outLog = s.outLog ∧ t.rb = s.rb ∧ t.halted = s.halted ∧ t.pc = s.pc))

/-! ### The whole machine -/

/-- EVERY STEP KEEPS THE INVARIANT, at every valid parameter value and from every state that meets it (R34 and the rules `Inv` names).
The canonical form of memory in `Inv` is the model's own notion (log entry 2), and its bound on `pc` is weaker than R22's under a small
`MEM_LIMIT` (log entry 11). -/
def Obligations.StepKeepsInvariant : Prop :=
  ∀ (c : Config), c.valid → ∀ s, Inv c s → Inv c (stepUnder c s).2

/-- The hardware's own step keeps the invariant, and with it `pc` within R22's range (R34). Canonical memory is the model's
own notion (log entry 2). -/
def Obligations.HardwareStepKeepsInvariant : Prop :=
  ∀ s t, Inv Config.hardware s → step s = .next t → Inv Config.hardware t ∧ t.pc ≤ Config.hardware.memLimit

/-- The machine after reset, which is LOAD of no words (log entry 6), meets the invariant (canonical memory is log entry 2). -/
def Obligations.ResetMeetsInvariant : Prop := Inv Config.hardware State.reset ∧ Config.hardware.valid

/-- LOAD (R250): every loaded program short enough gives an instance with its words at their addresses, 0 everywhere else, every other
field at R250's value, and the invariant; a longer one gives CapacityExceeded and an unreadable text MalformedProgram. The
fault and last-input registers' reset values are the spec's decisions D9 and D13. -/
def Obligations.LoadResets : Prop :=
  ∀ (c : Config), c.valid → ∀ (text : List Char),
    (∀ e, parse text = .error e → loadText c text = .error .malformedProgram) ∧
    ∀ P, parse text = .ok P →
      (c.memLimit < P.length → loadText c text = .error .capacityExceeded) ∧
      (P.length ≤ c.memLimit → ∃ s, loadText c text = .ok s ∧ Inv c s ∧
        (∀ a, a < P.length → s.mem.get a = P.getD a 0) ∧ (∀ a, P.length ≤ a → s.mem.get a = 0) ∧
        s.memLen = P.length ∧ s.pc = 0 ∧ s.rb = 0 ∧ s.inFifo = [] ∧ s.outLog = [] ∧ s.halted = false ∧ s.fault = none ∧
        s.lastInput = none)

/-- The relative base changes only in a step that executes ARB (R34 (c)): a step that changes it fetched an ARB. -/
def Obligations.OnlyArbMovesTheBase : Prop :=
  ∀ (c : Config) (s : State), (stepUnder c s).2.rb ≠ s.rb →
    ∃ a x, fetchInstr c s = .ok (.arb a) ∧ ReadsAs c s a x ∧ FitsAs c (s.rb.toInt + x.toInt) (stepUnder c s).2.rb

/-- The log only grows, by one value, and only OUT appends to it (R25, R34 (e), R153). -/
def Obligations.OnlyOutputAppends : Prop :=
  ∀ (c : Config) (s : State),
    (stepUnder c s).2.outLog = s.outLog ∨
      ∃ a x, fetchInstr c s = .ok (.out a) ∧ ReadsAs c s a x ∧ (stepUnder c s).2.outLog = s.outLog ++ [x]

/-- Inputs are consumed in the order fed, each at most once, by IN alone, and the value consumed is the one the last-input register then
holds (R24, R28, R153). -/
def Obligations.OnlyInputConsumes : Prop :=
  ∀ (c : Config) (s : State),
    ((stepUnder c s).2.inFifo = s.inFifo ∧ (stepUnder c s).2.lastInput = s.lastInput) ∨
      ∃ d v, fetchInstr c s = .ok (.inp d) ∧ s.inFifo = v :: (stepUnder c s).2.inFifo ∧ (stepUnder c s).2.lastInput = some v ∧
        (stepUnder c s).1 = .running

/-- Memory is written by the five instructions with a write operand alone, and only at the cell it names (R29, R111). -/
def Obligations.OnlyTargetsAreWritten : Prop :=
  ∀ (c : Config) (s : State) (n : Nat), (stepUnder c s).2.mem.get n ≠ s.mem.get n →
    ∃ i d, fetchInstr c s = .ok i ∧ i.target = some d ∧ TargetIs c s d n ∧ (stepUnder c s).1 = .running

/-- Every fault a step takes, from any state that has not faulted, leaves the record R202's table gives its code (the spec's decision
D8), with the word, the parameter and the address of what raised it, the first in R205's order (decision D10). -/
def Obligations.FaultRecordsFollowTheTable : Prop :=
  ∀ (c : Config) (s : State), s.fault = none →
    ∀ r, (stepUnder c s).2.fault = some r → RecordOk c s r ∧ (stepUnder c s).1 = .faulted r.code ∧ s.halted = false

/-- A suspended instance resumes where it stopped (R119, R120): fed one value, its next step is the same IN, which consumes exactly that
value; not fed, its next step reports AwaitingInput again. -/
def Obligations.SuspensionResumes : Prop :=
  ∀ (c : Config) (s : State), (stepUnder c s).1 = .awaitingInput →
    let t := (stepUnder c s).2
    (stepUnder c t).1 = .awaitingInput ∧
    ∀ v u, feed c v t = .ok u →
      ∃ d n, fetchInstr c u = .ok (.inp d) ∧ TargetIs c u d n ∧ (stepUnder c u).1 = .running ∧
        (stepUnder c u).2.inFifo = [] ∧ (stepUnder c u).2.lastInput = some v ∧ (stepUnder c u).2.mem = u.mem.set n v ∧
        (stepUnder c u).2.pc = s.pc + 2

/-- Feeding and stepping commute (R114): where a step neither suspends nor faults, feeding before it or after it gives the same result
and the same state, so when a value is fed does not change what the program does with it. -/
def Obligations.FeedCommutesWithStep : Prop :=
  ∀ (c : Config) (s t : State) (r : StepResult) (vs : List Word), stepUnder c s = (r, t) → r = .running ∨ r = .halted →
    stepUnder c { s with inFifo := s.inFifo ++ vs } = (r, { t with inFifo := t.inFifo ++ vs })

/-- Relative and Position operands of the same address are interchangeable (R181): replacing every Relative parameter, whose address is a
word's value, by the Position parameter of that address changes neither the result nor the state. -/
def Obligations.RelativeAgreesWithPosition : Prop :=
  ∀ (c : Config) (i : Instr) (s : State), (∀ p ∈ i.params, Rebasable s p) → execUnder c (rebase s i) s = execUnder c i s

/-! ### Entry points and the host's interface -/

/-- RUN (R116): it returns as soon as a step is not Running, with that step's result and state, after stepping through every Running one;
and it never returns Running. -/
def Obligations.RunStepsUntilStopped : Prop :=
  ∀ (c : Config) (s : State),
    (∀ r t, stepUnder c s = (r, t) → r ≠ .running → ∀ fuel, run c (fuel + 1) s = some (r, t)) ∧
    (∀ t, stepUnder c s = (.running, t) → ∀ fuel, run c (fuel + 1) s = run c fuel t) ∧
    ∀ fuel r t, run c fuel s = some (r, t) → r ≠ .running

/-- Fuel is no part of the machine (R118): with more of it RUN returns the same, and when it is spent there is no result. -/
def Obligations.FuelOnlyBoundsRun : Prop :=
  ∀ (c : Config) (s : State),
    (∀ n k r t, run c n s = some (r, t) → run c (n + k) s = some (r, t)) ∧
    (∀ n k r t, runToOutput c n s = some (r, t) → runToOutput c (n + k) s = some (r, t)) ∧
    ∀ n, run c n s = none → ∀ m, m ≤ n → run c m s = none

/-- RUN_TO_OUTPUT (R117): a step that is not Running ends it with that step's result; a Running step that appends a value to the log
ends it with that value, and any other is followed by the next; so a call appends one value exactly where it returns one. -/
def Obligations.RunToOutputAppendsOne : Prop :=
  ∀ (c : Config) (s : State) (fuel : Nat),
    (∀ r t, stepUnder c s = (r, t) → r ≠ .running → runToOutput c (fuel + 1) s = some (.result r, t)) ∧
    (∀ t v, stepUnder c s = (.running, t) → t.outLog = s.outLog ++ [v] → runToOutput c (fuel + 1) s = some (.value v, t)) ∧
    (∀ t, stepUnder c s = (.running, t) → t.outLog = s.outLog → runToOutput c (fuel + 1) s = runToOutput c fuel t) ∧
    (∀ v t, runToOutput c fuel s = some (.value v, t) → t.outLog = s.outLog ++ [v]) ∧
    ∀ r t, runToOutput c fuel s = some (.result r, t) → r ≠ .running ∧ t.outLog = s.outLog

/-- STEP, RUN and RUN_TO_OUTPUT (R222 to R224) perform one step, `Run` and `RunToOutput` on the instance and return its result, in
every state; RUN never returns Running, nor does RUN_TO_OUTPUT, whose value is both returned and left last in the log; and where the
loop gives no result within the fuel the command gives none (log entry 9). -/
def Obligations.ExecutionCommandsRunTheCore : Prop :=
  ∀ (c : Config) (fuel : Nat) (x : Session),
    x.command c fuel .step =
      some (.response (.result (stepUnder c x.core).1), { x with core := (stepUnder c x.core).2 }) ∧
    (∀ r t, run c fuel x.core = some (r, t) →
      x.command c fuel .run = some (.response (.result r), { x with core := t }) ∧ r ≠ .running) ∧
    (run c fuel x.core = none → x.command c fuel .run = none) ∧
    (∀ r t, runToOutput c fuel x.core = some (r, t) →
      x.command c fuel .runToOutput = some (.response r, { x with core := t }) ∧ r ≠ .result .running ∧
      ∀ v, r = .value v → t.outLog.getLast? = some v) ∧
    (runToOutput c fuel x.core = none → x.command c fuel .runToOutput = none)

/-- Once an instance has halted or faulted no command changes its memory, `pc`, relative base, log, halted flag or fault register; only
feeding still changes its FIFO (R34 (d), R239; the faulted case is the spec's decision D9). -/
def Obligations.StoppedInstanceIsFrozen : Prop :=
  ∀ (c : Config) (fuel : Nat) (cmd : Command) (x y : Session) (reply : Reply),
    Stopped x.core → x.command c fuel cmd = some (reply, y) →
    y.core = { x.core with inFifo := y.core.inFifo, memLen := y.core.memLen } ∧
    ((∀ v, cmd ≠ .feed v) → (∀ text, cmd ≠ .feedAscii text) → y.core.inFifo = x.core.inFifo)

/-- The output commands (R229): the whole log, its length, and its entry at an index, or BadIndex outside it; none changes the instance. -/
def Obligations.OutputCommandsObserve : Prop :=
  ∀ (c : Config) (fuel : Nat) (x : Session),
    x.command c fuel .outputs = some (.words x.core.outLog, x) ∧
    x.command c fuel .outLen = some (.count x.core.outLog.length, x) ∧
    ∀ i : Int,
      (∀ h : 0 ≤ i ∧ i < x.core.outLog.length,
        x.command c fuel (.outRead i) = some (.value (x.core.outLog[i.toNat]'(by omega)), x)) ∧
      (i < 0 ∨ x.core.outLog.length ≤ i → x.command c fuel (.outRead i) = some (.error .badIndex, x))

/-- FEED (R228) and LAST_INPUT_WAS (R232; the spec's decisions D13 and D16): a value is appended in every state, halted and faulted
included, unless the FIFO is at its capacity; and the query compares the last-input register. -/
def Obligations.FeedAndLastInput : Prop :=
  ∀ (c : Config) (fuel : Nat) (x : Session) (v : Word),
    ((∀ k ∈ c.inCap, x.core.inFifo.length < k) →
      x.command c fuel (.feed v) = some (.ok, { x with core := { x.core with inFifo := x.core.inFifo ++ [v] } })) ∧
    (∀ k, c.inCap = some k → k ≤ x.core.inFifo.length → x.command c fuel (.feed v) = some (.error .inputFull, x)) ∧
    ∃ b, x.command c fuel (.lastInputWas v) = some (.bool b, x) ∧ (b = true ↔ x.core.lastInput = some v)

/-- FEED_ASCII (R235; the spec's decision D23, the newline code 10 its general knowledge G2): a text with a character above 127, or longer
than the FIFO's room, feeds nothing; any other is fed character by character, each by FEED, and then the newline. -/
def Obligations.FeedAsciiFeedsAllOrNothing : Prop :=
  ∀ (c : Config) (text : List Char) (s : State),
    ((∃ x ∈ text, 127 < x.toNat) → feedAscii c text s = .error .nonAscii) ∧
    ((∀ x ∈ text, x.toNat ≤ 127) →
      (∀ k, c.inCap = some k → k < s.inFifo.length + text.length + 1 → feedAscii c text s = .error .inputFull) ∧
      ((∀ k ∈ c.inCap, s.inFifo.length + text.length + 1 ≤ k) →
        feedAscii c text s = (text.map (fun x : Char => BitVec.ofNat 64 x.toNat) ++ [10]).foldlM (fun t v => feed c v t) s))

/-- REQUIRE_ASCII_LINE (R237; the spec's decision D23): a line it returns is what the log holds from the line cursor on up to its first
newline, and the cursor then stands after that newline. -/
def Obligations.AsciiLineIsNextInLog : Prop :=
  ∀ (c : Config) (fuel rounds : Nat) (x y : Session) (text : List Char),
    requireAsciiLine c fuel rounds x = some (.line text, y) →
      y.core.outLog.drop x.lineCursor = text.map (fun a => BitVec.ofNat 64 a.toNat) ++ 10 :: y.core.outLog.drop y.lineCursor ∧
      (∀ a ∈ text, a.toNat ≤ 127 ∧ a.toNat ≠ 10) ∧ y.batchCursor = x.batchCursor

/-- READ_ADDR and WRITE_ADDR (R231; the spec's decision D15): a host address resolves by its mode as a parameter does; a bad mode, an
Immediate write target or an address outside memory is a host error that changes nothing; a write is refused on a stopped
instance before any other check, and is otherwise what the cell then reads. -/
def Obligations.HostMemoryAccess : Prop :=
  ∀ (c : Config) (s : State) (p : Param) (v : Word),
    (∀ mode : Int, mode < 0 ∨ 3 ≤ mode → readAddr c p.word mode s = .error .illegalMode) ∧
    (p.mode = .immediate → readAddr c p.word p.mode.toDigit s = .ok (p.word, s)) ∧
    (∀ a : Int, Names s p a → a < 0 → readAddr c p.word p.mode.toDigit s = .error .invalidAddress) ∧
    (∀ a : Int, Names s p a → (c.memLimit : Int) ≤ a → readAddr c p.word p.mode.toDigit s = .error .capacityExceeded) ∧
    (∀ n : Nat, Names s p n → n < c.memLimit →
      readAddr c p.word p.mode.toDigit s = .ok (s.mem.get n, { s with memLen := max s.memLen (n + 1) })) ∧
    (Stopped s → ∀ mode, writeAddr c p.word v mode s = .error .frozen) ∧
    (¬ Stopped s →
      (∀ mode : Int, mode < 0 ∨ 3 ≤ mode → writeAddr c p.word v mode s = .error .illegalMode) ∧
      (p.mode = .immediate → writeAddr c p.word v p.mode.toDigit s = .error .illegalWriteTarget) ∧
      (∀ a : Int, Names s p a → a < 0 → writeAddr c p.word v p.mode.toDigit s = .error .invalidAddress) ∧
      (∀ a : Int, Names s p a → (c.memLimit : Int) ≤ a → writeAddr c p.word v p.mode.toDigit s = .error .capacityExceeded) ∧
      ∀ n : Nat, Names s p n → n < c.memLimit →
        writeAddr c p.word v p.mode.toDigit s = .ok { s with mem := s.mem.set n v, memLen := max s.memLen (n + 1) })

/-- The response encoding (R226, with R200's numbers; the spec's decision D8): each result's kind and each fault's code, the kind in bits
2..0 of the status word and the code in bits 7..4, every other bit 0, a value in a word of its own; and of all commands only
RUN_TO_OUTPUT returns kind 4 and only STEP kind 0. -/
def Obligations.StatusWordPacks : Prop :=
  ((Response.result .running).kind = 0 ∧ (Response.result .awaitingInput).kind = 1 ∧ (Response.result .halted).kind = 2 ∧
    (∀ f, (Response.result (.faulted f)).kind = 3) ∧ ∀ v, (Response.value v).kind = 4) ∧
  ((Response.result (.faulted .unknownOpcode)).code = 1 ∧ (Response.result (.faulted .invalidAddress)).code = 2 ∧
    (Response.result (.faulted .illegalWriteTarget)).code = 3 ∧ (Response.result (.faulted .illegalMode)).code = 4 ∧
    (Response.result (.faulted .overflow)).code = 5 ∧ (Response.result (.faulted .capacityExceeded)).code = 6) ∧
  (∀ v, (Response.value v).word = v) ∧
  (∀ r : Response, r.status % 8 = r.kind ∧ r.status / 16 % 16 = r.code ∧ r.status / 8 % 2 = 0 ∧ r.status < 256 ∧
    (r.code ≠ 0 ↔ r.kind = 3) ∧ (r.kind ≠ 4 → r.word = 0)) ∧
  ∀ (c : Config) (fuel : Nat) (cmd : Command) (x y : Session) (r : Response), x.command c fuel cmd = some (.response r, y) →
    (r.kind = 4 → cmd = .runToOutput) ∧ (r.kind = 0 → cmd = .step)

/-- Program text (R251; the spec's decision D22): a text is malformed exactly where some comma-separated token is no word; otherwise
it gives one word per token, in order, one more than there are commas; and a token is a word exactly where it is a numeral, blanks
around it and a sign allowed, whose value is a word's, and is then that word. -/
def Obligations.ParseIsTokenwise : Prop :=
  (∀ text : List Char,
    (parse text = .error .malformedProgram ↔ ∃ t ∈ splitCommas text, tokenWord t = none) ∧
    (∀ P, parse text = .ok P → (splitCommas text).map tokenWord = P.map some ∧ P.length = text.count ',' + 1) ∧
    (∀ t ∈ splitCommas text, ',' ∉ t) ∧ List.intercalate [','] (splitCommas text) = text) ∧
  ∀ (t : List Char) (w : Word), tokenWord t = some w ↔ Numeral t w.toInt

/-- INSTANCES ARE ISOLATED (R35, R213): a request on one slot leaves every other slot's instance, its state and its cursors, as it was,
but for the slot a snapshot is put into; and its answer and its effect on its own slot do not depend on the others, nor, but for a
restore, on the copies the host holds. -/
def Obligations.InstancesAreIsolated : Prop :=
  ∀ (c : Config) (fuel j : Nat) (q : Request) (p : Platform),
    (∀ a p', p.request c fuel j q = some (a, p') →
      p'.slots.length = p.slots.length ∧ ∀ k, k ≠ j → (∀ into, q = .clone into → k ≠ into) → p'.slots[k]? = p.slots[k]?) ∧
    ∀ p₂ : Platform, p₂.slots.length = p.slots.length → p₂.slots[j]? = p.slots[j]? → (∀ into, q ≠ .clone into) →
      (∀ copy, q = .restore copy → p₂.held = p.held) →
      (p.request c fuel j q).map (fun r => (r.1, r.2.slots[j]?)) = (p₂.request c fuel j q).map (fun r => (r.1, r.2.slots[j]?))

/-- A snapshot copies the whole state and no cursor (R36, R233; the spec's decision D26), no later command on the original changes the
copy, and a copy SNAPSHOT returned can start an instance at any later time, whatever has become of the original (R206, R252). The
model's choices: the new instance's cursors are 0 (log entry 14), and it replaces an instance in its slot (log entry 18). -/
def Obligations.SnapshotIsIndependent : Prop :=
  ∀ (c : Config) (fuel : Nat) (p : Platform),
    (∀ j into x, p.at j = some x → into < p.slots.length → into ≠ j →
      ∃ p', p.request c fuel j (.clone into) = some (.reply .ok, p') ∧ p'.at j = some x ∧ p'.at into = some ⟨x.core, 0, 0⟩ ∧
        ∀ fuel' cmd a p'', p'.request c fuel' j (.command cmd) = some (a, p'') → p''.at into = some ⟨x.core, 0, 0⟩) ∧
    (∀ j x, p.at j = some x →
      p.request c fuel j (.command .snapshot) = some (.reply (.snapshot x.core), { p with held := p.held ++ [x.core] })) ∧
    (∀ j q a p', p.request c fuel j q = some (a, p') → ∀ (n : Nat) (s : State), p.held[n]? = some s → p'.held[n]? = some s) ∧
    ∀ (j n : Nat) (s : State), j < p.slots.length → p.held[n]? = some s →
      ∃ p', p.request c fuel j (.restore n) = some (.reply .ok, p') ∧ p'.at j = some ⟨s, 0, 0⟩ ∧ p'.held = p.held ∧
        ∀ k, k ≠ j → p'.at k = p.at k
end

