-- ==== Sys2Proof/Laws/Decode.lean ====
section
/-! SUPPORT. What reading the mode digits can do. -/

namespace Sys2Proof

/-- A digit is a mode's exactly when it is that mode's digit. -/
theorem Mode.ofDigit_eq_some_iff {n : Nat} {m : Mode} : Mode.ofDigit n = some m ↔ n = m.toDigit := by
  constructor
  · intro h
    unfold Mode.ofDigit at h
    split at h
    · cases h; rfl
    · cases h; rfl
    · cases h; rfl
    · cases h
  · rintro rfl; cases m <;> rfl

/-- A digit is no mode's exactly from 3 on. -/
theorem Mode.ofDigit_eq_none_iff {n : Nat} : Mode.ofDigit n = none ↔ 3 ≤ n := by
  unfold Mode.ofDigit
  split <;> (simp_all; try omega)

/-- A mode is read exactly as its digit. -/
theorem readMode_eq_ok_iff {k v : Nat} {m : Mode} : readMode k v = .ok m ↔ digit v (k + 1) = m.toDigit := by
  rw [← Mode.ofDigit_eq_some_iff]
  unfold readMode
  cases Mode.ofDigit (digit v (k + 1)) <;> simp

/-- Reading a mode raises only IllegalMode, exactly on a digit from 3 on. -/
theorem readMode_eq_error_iff {k v : Nat} {r : Raise} :
    readMode k v = .error r ↔ 3 ≤ digit v (k + 1) ∧ r = ⟨.illegalMode, some k, some (digit v (k + 1) : Nat)⟩ := by
  rw [← Mode.ofDigit_eq_none_iff]
  unfold readMode
  cases Mode.ofDigit (digit v (k + 1)) <;> simp [eq_comm]

/-- A write mode is read exactly as its digit, and is not Immediate. -/
theorem writeMode_eq_ok_iff {k v : Nat} {m : Mode} :
    writeMode k v = .ok m ↔ digit v (k + 1) = m.toDigit ∧ m ≠ .immediate := by
  rw [← readMode_eq_ok_iff]
  unfold writeMode
  cases readMode k v with
  | error r => simp
  | ok m' => cases m' <;> cases m <;> simp

/-- Reading a write mode raises IllegalMode on a digit from 3 on, and IllegalWriteTarget on digit 1. -/
theorem writeMode_eq_error_iff {k v : Nat} {r : Raise} :
    writeMode k v = .error r ↔
      (3 ≤ digit v (k + 1) ∧ r = ⟨.illegalMode, some k, some (digit v (k + 1) : Nat)⟩) ∨
      (digit v (k + 1) = 1 ∧ r = ⟨.illegalWriteTarget, some k, none⟩) := by
  have h1 : digit v (k + 1) = 1 ↔ readMode k v = .ok .immediate := (readMode_eq_ok_iff (m := .immediate)).symm
  rw [← readMode_eq_error_iff, h1]
  unfold writeMode
  cases readMode k v with
  | error r => simp
  | ok m => cases m <;> simp [eq_comm]

/-- A write mode is one a write operand may have. -/
theorem Mode.writable_iff {m : Mode} : m.writable = true ↔ m ≠ .immediate := by cases m <;> simp [Mode.writable]

/-- A digit of a decimal numeral is below 10. -/
theorem digit_lt (v i : Nat) : digit v i < 10 := Nat.mod_lt _ (by omega)

end Sys2Proof
end

