-- ==== Sys2Proof/Laws/Memory.lean ====
section
/-! SUPPORT. Memory: a read after a write, and the canonical form kept by every operation. -/

namespace Sys2Proof.Machine

/-- A read of the front cell, or past it. -/
theorem Memory.get_cons (b : Nat) (v : Word) (rest : Memory) (a : Nat) :
    Memory.get ((b, v) :: rest) a = if a = b then v else Memory.get rest a := rfl

/-- Nothing is listed at or below a bound that a canonical memory starts above. -/
theorem Memory.get_of_startsAbove {m : Memory} {a : Nat} (hw : m.wf = true) (ha : m.startsAbove a = true) {b : Nat} (hb : b ≤ a) :
    m.get b = Memory.fill := by
  induction m generalizing a with
  | nil => rfl
  | cons e rest ih =>
    obtain ⟨k, v⟩ := e
    simp only [Memory.wf, Memory.startsAbove, Bool.and_eq_true, decide_eq_true_eq] at hw ha
    rw [Memory.get_cons, if_neg (by omega)]
    exact ih hw.2 hw.1.2 (by omega)

/-- A cell put in front is read back, whatever it holds, where nothing behind it is listed at its address. -/
theorem Memory.get_cons_self {m : Memory} {a : Nat} (v : Word) (h : m.get a = Memory.fill) : (Memory.cons a v m).get a = v := by
  unfold Memory.cons
  split
  · rw [h, ‹v = _›]
  · simp [Memory.get_cons]

/-- A cell put in front leaves every other address as it was. -/
theorem Memory.get_cons_ne {m : Memory} {a b : Nat} (v : Word) (h : b ≠ a) : (Memory.cons a v m).get b = m.get b := by
  unfold Memory.cons
  split
  · rfl
  · rw [Memory.get_cons, if_neg h]

/-- A write leaves every other address as it was, in any list of cells. -/
theorem Memory.get_set_ne (m : Memory) {a b : Nat} (v : Word) (h : b ≠ a) : (m.set a v).get b = m.get b := by
  induction m with
  | nil => exact Memory.get_cons_ne v h
  | cons e rest ih =>
    obtain ⟨k, w⟩ := e
    unfold Memory.set
    split
    · exact Memory.get_cons_ne v h
    · split
      · rw [Memory.get_cons_ne v h, Memory.get_cons, if_neg (by omega)]
      · rw [Memory.get_cons, Memory.get_cons, ih]

/-- A canonical memory reads back what was written. -/
theorem Memory.get_set_self {m : Memory} (hw : m.wf = true) (a : Nat) (v : Word) : (m.set a v).get a = v := by
  induction m with
  | nil => exact Memory.get_cons_self v rfl
  | cons e rest ih =>
    obtain ⟨k, w⟩ := e
    have hw' := hw
    simp only [Memory.wf, Bool.and_eq_true] at hw'
    unfold Memory.set
    split
    · refine Memory.get_cons_self v ?_
      rw [Memory.get_cons, if_neg (by omega)]
      exact Memory.get_of_startsAbove hw'.2 hw'.1.2 (by omega)
    · split
      · exact Memory.get_cons_self v (Memory.get_of_startsAbove hw'.2 hw'.1.2 (by omega))
      · rw [Memory.get_cons, if_neg (by omega)]
        exact ih hw'.2

/-- Read after write, at any address of a canonical memory. -/
theorem Memory.get_set {m : Memory} (hw : m.wf = true) (a b : Nat) (v : Word) :
    (m.set a v).get b = if b = a then v else m.get b := by
  split
  · rw [‹b = a›, Memory.get_set_self hw]
  · exact Memory.get_set_ne m v ‹_›

theorem Memory.wf_cons {m : Memory} {a : Nat} (v : Word) (hw : m.wf = true) (ha : m.startsAbove a = true) :
    (Memory.cons a v m).wf = true := by
  unfold Memory.cons
  split
  · exact hw
  · simp [Memory.wf, *]

theorem Memory.startsAbove_mono {m : Memory} {a b : Nat} (hb : b ≤ a) (h : m.startsAbove a = true) : m.startsAbove b = true := by
  cases m with
  | nil => rfl
  | cons e rest => simp only [Memory.startsAbove, decide_eq_true_eq] at h ⊢; omega

theorem Memory.startsAbove_cons {m : Memory} {a b : Nat} (v : Word) (hb : b < a) (h : m.startsAbove b = true) :
    (Memory.cons a v m).startsAbove b = true := by
  unfold Memory.cons
  split
  · exact h
  · simpa [Memory.startsAbove] using hb

theorem Memory.startsAbove_set {m : Memory} {a b : Nat} (v : Word) (hw : m.wf = true) (hb : b < a) (h : m.startsAbove b = true) :
    (m.set a v).startsAbove b = true := by
  cases m with
  | nil => exact Memory.startsAbove_cons v hb rfl
  | cons e rest =>
    obtain ⟨k, w⟩ := e
    simp only [Memory.wf, Bool.and_eq_true] at hw
    simp only [Memory.startsAbove, decide_eq_true_eq] at h
    unfold Memory.set
    split
    · exact Memory.startsAbove_cons v hb (by simpa [Memory.startsAbove] using h)
    · split
      · exact Memory.startsAbove_cons v hb (Memory.startsAbove_mono (by omega) hw.1.2)
      · simpa [Memory.startsAbove] using h

/-- A write keeps the canonical form. -/
theorem Memory.wf_set {m : Memory} (hw : m.wf = true) (a : Nat) (v : Word) : (m.set a v).wf = true := by
  induction m with
  | nil => exact Memory.wf_cons v rfl rfl
  | cons e rest ih =>
    obtain ⟨k, w⟩ := e
    have hw' := hw
    simp only [Memory.wf, Bool.and_eq_true] at hw'
    unfold Memory.set
    split
    · exact Memory.wf_cons v hw (by simpa [Memory.startsAbove])
    · split
      · exact Memory.wf_cons v hw'.2 (Memory.startsAbove_mono (by omega) hw'.1.2)
      · simp only [Memory.wf, Bool.and_eq_true]
        exact ⟨⟨hw'.1.1, Memory.startsAbove_set v hw'.2 (by omega) hw'.1.2⟩, ih hw'.2⟩

theorem Memory.startsAbove_ofWords (ws : List Word) {a b : Nat} (h : b < a) : (Memory.ofWords a ws).startsAbove b = true := by
  induction ws generalizing a with
  | nil => rfl
  | cons w ws ih => exact Memory.startsAbove_cons w h (ih (by omega))

/-- A loaded program is in canonical form. -/
theorem Memory.wf_ofWords (a : Nat) (ws : List Word) : (Memory.ofWords a ws).wf = true := by
  induction ws generalizing a with
  | nil => rfl
  | cons w ws ih => exact Memory.wf_cons w (ih (a + 1)) (Memory.startsAbove_ofWords ws (by omega))

/-- A loaded program's cells, and nothing else, hold its words. -/
theorem Memory.get_ofWords (a : Nat) (ws : List Word) (b : Nat) :
    (Memory.ofWords a ws).get b = if a ≤ b then ws.getD (b - a) Memory.fill else Memory.fill := by
  induction ws generalizing a with
  | nil => simp [Memory.ofWords, Memory.get]
  | cons w ws ih =>
    by_cases h : b = a
    · subst h
      rw [Memory.ofWords, Memory.get_cons_self w (by rw [ih, if_neg (by omega)])]
      simp
    · rw [Memory.ofWords, Memory.get_cons_ne w h, ih]
      by_cases h' : a ≤ b
      · rw [if_pos (by omega), if_pos h', show b - a = (b - (a + 1)) + 1 by omega, List.getD_cons_succ]
      · rw [if_neg (by omega), if_neg h']

end Sys2Proof.Machine
end

