-- ==== Sys2Proof/Laws/State.lean ====
section
/-! SUPPORT. What each update of State leaves in each field. -/

namespace Sys2Proof.Machine

variable (s : State)

@[simp] theorem State.setPc_mem (a : Nat) : (s.setPc a).mem = s.mem := rfl
@[simp] theorem State.setPc_memLen (a : Nat) : (s.setPc a).memLen = s.memLen := rfl
@[simp] theorem State.setPc_pc (a : Nat) : (s.setPc a).pc = a := rfl
@[simp] theorem State.setPc_rb (a : Nat) : (s.setPc a).rb = s.rb := rfl
@[simp] theorem State.setPc_inFifo (a : Nat) : (s.setPc a).inFifo = s.inFifo := rfl
@[simp] theorem State.setPc_outLog (a : Nat) : (s.setPc a).outLog = s.outLog := rfl
@[simp] theorem State.setPc_halted (a : Nat) : (s.setPc a).halted = s.halted := rfl
@[simp] theorem State.setPc_fault (a : Nat) : (s.setPc a).fault = s.fault := rfl
@[simp] theorem State.setPc_lastInput (a : Nat) : (s.setPc a).lastInput = s.lastInput := rfl

@[simp] theorem State.setRb_mem (v : Word) : (s.setRb v).mem = s.mem := rfl
@[simp] theorem State.setRb_memLen (v : Word) : (s.setRb v).memLen = s.memLen := rfl
@[simp] theorem State.setRb_pc (v : Word) : (s.setRb v).pc = s.pc := rfl
@[simp] theorem State.setRb_rb (v : Word) : (s.setRb v).rb = v := rfl
@[simp] theorem State.setRb_inFifo (v : Word) : (s.setRb v).inFifo = s.inFifo := rfl
@[simp] theorem State.setRb_outLog (v : Word) : (s.setRb v).outLog = s.outLog := rfl
@[simp] theorem State.setRb_halted (v : Word) : (s.setRb v).halted = s.halted := rfl
@[simp] theorem State.setRb_fault (v : Word) : (s.setRb v).fault = s.fault := rfl
@[simp] theorem State.setRb_lastInput (v : Word) : (s.setRb v).lastInput = s.lastInput := rfl

@[simp] theorem State.storeWord_mem (a : Nat) (v : Word) : (s.storeWord a v).mem = s.mem.set a v := rfl
@[simp] theorem State.storeWord_memLen (a : Nat) (v : Word) : (s.storeWord a v).memLen = s.memLen := rfl
@[simp] theorem State.storeWord_pc (a : Nat) (v : Word) : (s.storeWord a v).pc = s.pc := rfl
@[simp] theorem State.storeWord_rb (a : Nat) (v : Word) : (s.storeWord a v).rb = s.rb := rfl
@[simp] theorem State.storeWord_inFifo (a : Nat) (v : Word) : (s.storeWord a v).inFifo = s.inFifo := rfl
@[simp] theorem State.storeWord_outLog (a : Nat) (v : Word) : (s.storeWord a v).outLog = s.outLog := rfl
@[simp] theorem State.storeWord_halted (a : Nat) (v : Word) : (s.storeWord a v).halted = s.halted := rfl
@[simp] theorem State.storeWord_fault (a : Nat) (v : Word) : (s.storeWord a v).fault = s.fault := rfl
@[simp] theorem State.storeWord_lastInput (a : Nat) (v : Word) : (s.storeWord a v).lastInput = s.lastInput := rfl

@[simp] theorem State.setExtent_mem (n : Nat) : (s.setExtent n).mem = s.mem := rfl
@[simp] theorem State.setExtent_memLen (n : Nat) : (s.setExtent n).memLen = n := rfl
@[simp] theorem State.setExtent_pc (n : Nat) : (s.setExtent n).pc = s.pc := rfl
@[simp] theorem State.setExtent_rb (n : Nat) : (s.setExtent n).rb = s.rb := rfl
@[simp] theorem State.setExtent_inFifo (n : Nat) : (s.setExtent n).inFifo = s.inFifo := rfl
@[simp] theorem State.setExtent_outLog (n : Nat) : (s.setExtent n).outLog = s.outLog := rfl
@[simp] theorem State.setExtent_halted (n : Nat) : (s.setExtent n).halted = s.halted := rfl
@[simp] theorem State.setExtent_fault (n : Nat) : (s.setExtent n).fault = s.fault := rfl
@[simp] theorem State.setExtent_lastInput (n : Nat) : (s.setExtent n).lastInput = s.lastInput := rfl

@[simp] theorem State.setFifo_mem (q : List Word) : (s.setFifo q).mem = s.mem := rfl
@[simp] theorem State.setFifo_memLen (q : List Word) : (s.setFifo q).memLen = s.memLen := rfl
@[simp] theorem State.setFifo_pc (q : List Word) : (s.setFifo q).pc = s.pc := rfl
@[simp] theorem State.setFifo_rb (q : List Word) : (s.setFifo q).rb = s.rb := rfl
@[simp] theorem State.setFifo_inFifo (q : List Word) : (s.setFifo q).inFifo = q := rfl
@[simp] theorem State.setFifo_outLog (q : List Word) : (s.setFifo q).outLog = s.outLog := rfl
@[simp] theorem State.setFifo_halted (q : List Word) : (s.setFifo q).halted = s.halted := rfl
@[simp] theorem State.setFifo_fault (q : List Word) : (s.setFifo q).fault = s.fault := rfl
@[simp] theorem State.setFifo_lastInput (q : List Word) : (s.setFifo q).lastInput = s.lastInput := rfl

@[simp] theorem State.appendOut_mem (v : Word) : (s.appendOut v).mem = s.mem := rfl
@[simp] theorem State.appendOut_memLen (v : Word) : (s.appendOut v).memLen = s.memLen := rfl
@[simp] theorem State.appendOut_pc (v : Word) : (s.appendOut v).pc = s.pc := rfl
@[simp] theorem State.appendOut_rb (v : Word) : (s.appendOut v).rb = s.rb := rfl
@[simp] theorem State.appendOut_inFifo (v : Word) : (s.appendOut v).inFifo = s.inFifo := rfl
@[simp] theorem State.appendOut_outLog (v : Word) : (s.appendOut v).outLog = s.outLog ++ [v] := rfl
@[simp] theorem State.appendOut_halted (v : Word) : (s.appendOut v).halted = s.halted := rfl
@[simp] theorem State.appendOut_fault (v : Word) : (s.appendOut v).fault = s.fault := rfl
@[simp] theorem State.appendOut_lastInput (v : Word) : (s.appendOut v).lastInput = s.lastInput := rfl

@[simp] theorem State.setHalted_mem : (s.setHalted).mem = s.mem := rfl
@[simp] theorem State.setHalted_memLen : (s.setHalted).memLen = s.memLen := rfl
@[simp] theorem State.setHalted_pc : (s.setHalted).pc = s.pc := rfl
@[simp] theorem State.setHalted_rb : (s.setHalted).rb = s.rb := rfl
@[simp] theorem State.setHalted_inFifo : (s.setHalted).inFifo = s.inFifo := rfl
@[simp] theorem State.setHalted_outLog : (s.setHalted).outLog = s.outLog := rfl
@[simp] theorem State.setHalted_halted : (s.setHalted).halted = true := rfl
@[simp] theorem State.setHalted_fault : (s.setHalted).fault = s.fault := rfl
@[simp] theorem State.setHalted_lastInput : (s.setHalted).lastInput = s.lastInput := rfl

@[simp] theorem State.setFault_mem (r : FaultRecord) : (s.setFault r).mem = s.mem := rfl
@[simp] theorem State.setFault_memLen (r : FaultRecord) : (s.setFault r).memLen = s.memLen := rfl
@[simp] theorem State.setFault_pc (r : FaultRecord) : (s.setFault r).pc = s.pc := rfl
@[simp] theorem State.setFault_rb (r : FaultRecord) : (s.setFault r).rb = s.rb := rfl
@[simp] theorem State.setFault_inFifo (r : FaultRecord) : (s.setFault r).inFifo = s.inFifo := rfl
@[simp] theorem State.setFault_outLog (r : FaultRecord) : (s.setFault r).outLog = s.outLog := rfl
@[simp] theorem State.setFault_halted (r : FaultRecord) : (s.setFault r).halted = s.halted := rfl
@[simp] theorem State.setFault_fault (r : FaultRecord) : (s.setFault r).fault = some r := rfl
@[simp] theorem State.setFault_lastInput (r : FaultRecord) : (s.setFault r).lastInput = s.lastInput := rfl

@[simp] theorem State.noteInput_mem (v : Word) : (s.noteInput v).mem = s.mem := rfl
@[simp] theorem State.noteInput_memLen (v : Word) : (s.noteInput v).memLen = s.memLen := rfl
@[simp] theorem State.noteInput_pc (v : Word) : (s.noteInput v).pc = s.pc := rfl
@[simp] theorem State.noteInput_rb (v : Word) : (s.noteInput v).rb = s.rb := rfl
@[simp] theorem State.noteInput_inFifo (v : Word) : (s.noteInput v).inFifo = s.inFifo := rfl
@[simp] theorem State.noteInput_outLog (v : Word) : (s.noteInput v).outLog = s.outLog := rfl
@[simp] theorem State.noteInput_halted (v : Word) : (s.noteInput v).halted = s.halted := rfl
@[simp] theorem State.noteInput_fault (v : Word) : (s.noteInput v).fault = s.fault := rfl
@[simp] theorem State.noteInput_lastInput (v : Word) : (s.noteInput v).lastInput = some v := rfl

@[simp] theorem State.grow_mem (a : Nat) : (s.grow a).mem = s.mem := rfl
@[simp] theorem State.grow_memLen (a : Nat) : (s.grow a).memLen = max s.memLen (a + 1) := rfl
@[simp] theorem State.grow_pc (a : Nat) : (s.grow a).pc = s.pc := rfl
@[simp] theorem State.grow_rb (a : Nat) : (s.grow a).rb = s.rb := rfl
@[simp] theorem State.grow_inFifo (a : Nat) : (s.grow a).inFifo = s.inFifo := rfl
@[simp] theorem State.grow_outLog (a : Nat) : (s.grow a).outLog = s.outLog := rfl
@[simp] theorem State.grow_halted (a : Nat) : (s.grow a).halted = s.halted := rfl
@[simp] theorem State.grow_fault (a : Nat) : (s.grow a).fault = s.fault := rfl
@[simp] theorem State.grow_lastInput (a : Nat) : (s.grow a).lastInput = s.lastInput := rfl

@[simp] theorem commit_mem (ps : List Param) (n : Nat) (w : State) : (commit s ps n w).mem = w.mem := rfl
@[simp] theorem commit_memLen (ps : List Param) (n : Nat) (w : State) : (commit s ps n w).memLen = extentAfter s ps := rfl
@[simp] theorem commit_pc (ps : List Param) (n : Nat) (w : State) : (commit s ps n w).pc = n := rfl
@[simp] theorem commit_rb (ps : List Param) (n : Nat) (w : State) : (commit s ps n w).rb = w.rb := rfl
@[simp] theorem commit_inFifo (ps : List Param) (n : Nat) (w : State) : (commit s ps n w).inFifo = w.inFifo := rfl
@[simp] theorem commit_outLog (ps : List Param) (n : Nat) (w : State) : (commit s ps n w).outLog = w.outLog := rfl
@[simp] theorem commit_halted (ps : List Param) (n : Nat) (w : State) : (commit s ps n w).halted = w.halted := rfl
@[simp] theorem commit_fault (ps : List Param) (n : Nat) (w : State) : (commit s ps n w).fault = w.fault := rfl
@[simp] theorem commit_lastInput (ps : List Param) (n : Nat) (w : State) : (commit s ps n w).lastInput = w.lastInput := rfl

end Sys2Proof.Machine
end

