-- ==== Sys2Proof/Laws/Ops.lean ====
section
/-! SUPPORT. What each shared operation can do: address checks, accesses, operand resolution, the tape's extent, `Fit`, taking a fault. -/

namespace Sys2Proof.Machine

variable {c : Config} {s : State}

/-- The address check passes exactly on an existing address. -/
theorem checkAddr_eq_ok_iff {k : Option Nat} {a : Int} {n : Nat} :
    checkAddr c k a = .ok n ↔ a = (n : Int) ∧ n < c.memLimit := by
  unfold checkAddr
  split
  · simp; omega
  · split
    · simp; omega
    · simp only [Except.ok.injEq]; omega

/-- The address check of parameter `k` fails exactly with the fault R51 gives the address. -/
theorem checkAddr_eq_error_iff {k : Nat} {a : Int} {r : Raise} :
    checkAddr c (some k) a = .error r ↔ AddrFault c k a r := by
  unfold checkAddr AddrFault
  split
  · simp only [Except.error.injEq]
    constructor
    · rintro rfl; exact .inl ⟨‹_›, rfl⟩
    · rintro (⟨_, rfl⟩ | ⟨h, rfl⟩)
      · rfl
      · omega
  · split
    · simp only [Except.error.injEq]
      constructor
      · rintro rfl; exact .inr ⟨‹_›, rfl⟩
      · rintro (⟨h, rfl⟩ | ⟨_, rfl⟩)
        · omega
        · rfl
    · simp only [reduceCtorEq, false_iff]
      rintro (⟨h, _⟩ | ⟨h, _⟩) <;> omega

/-- What an access outside memory is told, whether or not a parameter is being resolved. -/
theorem checkAddr_error_cases {k : Option Nat} {a : Int} {r : Raise} (h : checkAddr c k a = .error r) :
    (a < 0 ∧ r = ⟨.invalidAddress, k, some a⟩) ∨ ((c.memLimit : Int) ≤ a ∧ r = ⟨.capacityExceeded, k, some a⟩) := by
  unfold checkAddr at h
  split at h
  · cases h; exact .inl ⟨‹_›, rfl⟩
  · split at h
    · cases h; exact .inr ⟨‹_›, rfl⟩
    · cases h

/-- A read succeeds exactly on an existing address, giving its word and growing the tape. -/
theorem memRead_eq_ok_iff {k : Option Nat} {a : Int} {r : Word × State} :
    memRead c k a s = .ok r ↔ ∃ n : Nat, a = n ∧ n < c.memLimit ∧ r = (s.mem.get n, s.grow n) := by
  unfold memRead
  cases h : checkAddr c k a with
  | error e =>
    simp only [bind, Except.bind, reduceCtorEq, false_iff]
    rintro ⟨n, ha, hn, -⟩
    rw [checkAddr_eq_ok_iff.2 ⟨ha, hn⟩] at h
    cases h
  | ok n =>
    have := checkAddr_eq_ok_iff.1 h
    simp only [bind, Except.bind, Except.ok.injEq]
    constructor
    · rintro rfl; exact ⟨n, this.1, this.2, rfl⟩
    · rintro ⟨m, ha, -, rfl⟩
      obtain rfl : n = m := by omega
      rfl

/-- A write succeeds exactly on an existing address. -/
theorem memWrite_eq_ok_iff {k : Option Nat} {a : Int} {v : Word} {t : State} :
    memWrite c k a v s = .ok t ↔ ∃ n : Nat, a = n ∧ n < c.memLimit ∧ t = (s.grow n).storeWord n v := by
  unfold memWrite
  cases h : checkAddr c k a with
  | error e =>
    simp only [bind, Except.bind, reduceCtorEq, false_iff]
    rintro ⟨n, ha, hn, -⟩
    rw [checkAddr_eq_ok_iff.2 ⟨ha, hn⟩] at h
    cases h
  | ok n =>
    have := checkAddr_eq_ok_iff.1 h
    simp only [bind, Except.bind, Except.ok.injEq]
    constructor
    · rintro rfl; exact ⟨n, this.1, this.2, rfl⟩
    · rintro ⟨m, ha, -, rfl⟩
      obtain rfl : n = m := by omega
      rfl

/-- A parameter's address, told by its mode. -/
theorem paramAddr_eq_some_iff {p : Param} {a : Int} : paramAddr s p = some a ↔ Names s p a := by
  obtain ⟨m, w⟩ := p
  cases m <;> simp [paramAddr, Names, eq_comm]

/-- Only an Immediate parameter names no address. -/
theorem paramAddr_eq_none_iff {p : Param} : paramAddr s p = none ↔ p.mode = .immediate := by
  obtain ⟨m, w⟩ := p
  cases m <;> simp [paramAddr]

/-- A parameter names one address at most. -/
theorem Names.unique {p : Param} {a b : Int} (ha : Names s p a) (hb : Names s p b) : a = b :=
  Option.some.inj ((paramAddr_eq_some_iff.2 ha).symm.trans (paramAddr_eq_some_iff.2 hb))

/-- Reading an operand answers exactly what R105 gives. -/
theorem readOperand_eq_ok_iff {k : Nat} {p : Param} {x : Word} : readOperand c k p s = .ok x ↔ ReadsAs c s p x := by
  unfold readOperand ReadsAs
  cases h : paramAddr s p with
  | none =>
    have hm := paramAddr_eq_none_iff.1 h
    simp [hm, Names, eq_comm]
  | some a =>
    have ha := paramAddr_eq_some_iff.1 h
    have hm : p.mode ≠ .immediate := fun e => by rw [paramAddr_eq_none_iff.2 e] at h; cases h
    have key : (do let r ← memRead c (some k) a s; Except.ok r.1) = .ok x ↔ ∃ n : Nat, a = n ∧ n < c.memLimit ∧ x = s.mem.get n := by
      cases h' : memRead c (some k) a s with
      | error e =>
        simp only [bind, Except.bind, reduceCtorEq, false_iff]
        rintro ⟨n, e1, e2, -⟩
        rw [memRead_eq_ok_iff.2 ⟨n, e1, e2, rfl⟩] at h'
        cases h'
      | ok r =>
        obtain ⟨n, e1, e2, rfl⟩ := memRead_eq_ok_iff.1 h'
        simp only [bind, Except.bind, Except.ok.injEq]
        constructor
        · rintro rfl; exact ⟨n, e1, e2, rfl⟩
        · rintro ⟨m, f1, -, rfl⟩
          obtain rfl : n = m := by omega
          rfl
    refine key.trans ?_
    simp only [hm, false_and, false_or]
    constructor
    · rintro ⟨n, rfl, e⟩; exact ⟨n, ha, e⟩
    · rintro ⟨n, hn, e⟩; exact ⟨n, ha.unique hn, e⟩

/-- Reading an operand raises exactly what R105 and R51 give. -/
theorem readOperand_eq_error_iff {k : Nat} {p : Param} {r : Raise} : readOperand c k p s = .error r ↔ ResolveFails c s k p r := by
  unfold readOperand ResolveFails
  cases h : paramAddr s p with
  | none =>
    simp only [reduceCtorEq, false_iff]
    rintro ⟨a, ha, -⟩
    rw [paramAddr_eq_some_iff.2 ha] at h
    cases h
  | some a =>
    have ha := paramAddr_eq_some_iff.1 h
    have key : (do let r ← memRead c (some k) a s; Except.ok r.1) = .error r ↔ checkAddr c (some k) a = .error r := by
      unfold memRead
      cases checkAddr c (some k) a <;> simp [bind, Except.bind]
    refine key.trans (checkAddr_eq_error_iff.trans ?_)
    constructor
    · intro hf; exact ⟨a, ha, hf⟩
    · rintro ⟨b, hb, hf⟩; rwa [ha.unique hb]

/-- Resolving a write operand answers exactly the cell R107 gives. -/
theorem writeTarget_eq_ok_iff {k : Nat} {p : Param} {n : Nat} : writeTarget c k p s = .ok n ↔ TargetIs c s p n := by
  unfold writeTarget TargetIs
  cases h : paramAddr s p with
  | none =>
    simp only [reduceCtorEq, false_iff]
    rintro ⟨ha, -⟩
    rw [paramAddr_eq_some_iff.2 ha] at h
    cases h
  | some a =>
    have ha := paramAddr_eq_some_iff.1 h
    show checkAddr c (some k) a = .ok n ↔ _
    rw [checkAddr_eq_ok_iff]
    constructor
    · rintro ⟨rfl, hn⟩; exact ⟨ha, hn⟩
    · rintro ⟨hn, hl⟩; exact ⟨ha.unique hn, hl⟩

/-- Resolving a write operand raises exactly what R107 gives, or IllegalWriteTarget for an Immediate one (R76). -/
theorem writeTarget_eq_error_iff {k : Nat} {p : Param} {r : Raise} :
    writeTarget c k p s = .error r ↔
      ResolveFails c s k p r ∨ (p.mode = .immediate ∧ r = ⟨.illegalWriteTarget, some k, none⟩) := by
  unfold writeTarget ResolveFails
  cases h : paramAddr s p with
  | none =>
    have hm := paramAddr_eq_none_iff.1 h
    simp only [Except.error.injEq, hm, true_and]
    constructor
    · rintro rfl; exact .inr rfl
    · rintro (⟨a, ha, -⟩ | rfl)
      · rw [paramAddr_eq_some_iff.2 ha] at h; cases h
      · rfl
  | some a =>
    have ha := paramAddr_eq_some_iff.1 h
    have hm : p.mode ≠ .immediate := fun e => by rw [paramAddr_eq_none_iff.2 e] at h; cases h
    show checkAddr c (some k) a = .error r ↔ _
    rw [checkAddr_eq_error_iff]
    simp only [hm, false_and, or_false]
    constructor
    · intro hf; exact ⟨a, ha, hf⟩
    · rintro ⟨b, hb, hf⟩; rwa [ha.unique hb]

theorem foldl_extent_le_iff (as : List Int) (m k : Nat) :
    as.foldl (fun m a => max m (a.toNat + 1)) m ≤ k ↔ m ≤ k ∧ ∀ a ∈ as, a.toNat < k := by
  induction as generalizing m with
  | nil => simp
  | cons a as ih =>
    rw [List.foldl_cons, ih]
    simp only [List.mem_cons, forall_eq_or_imp, max_le_iff, Nat.succ_le_iff, and_assoc]

/-- The extent after a committed step is the least number above the old extent, the instruction's words and every cell its
parameters name (R30, R56). -/
theorem extentAfter_le_iff {ps : List Param} {k : Nat} :
    extentAfter s ps ≤ k ↔
      s.memLen ≤ k ∧ s.pc + ps.length < k ∧ ∀ p ∈ ps, ∀ a, Names s p a → a.toNat < k := by
  unfold extentAfter
  rw [foldl_extent_le_iff]
  simp only [List.mem_filterMap, paramAddr_eq_some_iff, forall_exists_index, and_imp]
  constructor
  · rintro ⟨h1, h2⟩
    exact ⟨by omega, by omega, fun p hp a ha => h2 a p hp ha⟩
  · rintro ⟨h1, h2, h3⟩
    exact ⟨by omega, fun a p hp ha => h3 p hp a ha⟩

/-- The tape never shrinks at a commit. -/
theorem memLen_le_extentAfter (ps : List Param) : s.memLen ≤ extentAfter s ps := (extentAfter_le_iff.1 le_rfl).1

/-- A word's value fits. -/
theorem fits64_toInt (w : Word) : fits64 w.toInt := by
  have h1 := @BitVec.toInt_lt 64 w
  have h2 := @BitVec.le_toInt 64 w
  exact ⟨by omega, by omega⟩

/-- An integer of `i64` is its own word's value. -/
theorem toInt_ofInt_of_fits {v : Int} (h : fits64 v) : (Word.ofInt v).toInt = v := by
  obtain ⟨h1, h2⟩ := h
  rw [Word.ofInt, BitVec.toInt_ofInt]
  exact Int.bmod_eq_of_le (by omega) (by omega)

/-- Narrowing an integer keeps its residue modulo 2^64. -/
theorem toInt_ofInt_emod (v : Int) : (Word.ofInt v).toInt % 2 ^ 64 = v % 2 ^ 64 := by
  rw [Word.ofInt, BitVec.toInt_ofInt]
  exact Int.bmod_emod

/-- Words of equal residues modulo 2^64 are equal. -/
theorem word_eq_of_emod {x y : Word} (h : x.toInt % 2 ^ 64 = y.toInt % 2 ^ 64) : x = y := by
  have hx := fits64_toInt x
  have hy := fits64_toInt y
  apply BitVec.eq_of_toInt_eq
  obtain ⟨_, _⟩ := hx
  obtain ⟨_, _⟩ := hy
  omega

/-- `Fit` answers exactly what R109 gives. -/
theorem fit_eq_ok_iff {v : Int} {r : Word} : fit c v = .ok r ↔ FitsAs c v r := by
  unfold fit FitsAs
  by_cases h : fits64 v
  · rw [if_pos h, Except.ok.injEq]
    constructor
    · rintro rfl; exact .inl ⟨h, toInt_ofInt_of_fits h⟩
    · rintro (⟨_, hr⟩ | ⟨hn, _⟩)
      · exact BitVec.eq_of_toInt_eq ((toInt_ofInt_of_fits h).trans hr.symm)
      · exact absurd h hn
  · rw [if_neg h]
    cases ho : c.ovf with
    | fault =>
      constructor
      · intro e; cases e
      · rintro (⟨hf, _⟩ | ⟨_, e, _⟩)
        · exact absurd hf h
        · cases e
    | wrap =>
      simp only [Except.ok.injEq]
      constructor
      · rintro rfl; exact .inr ⟨h, trivial, toInt_ofInt_emod v⟩
      · rintro (⟨hf, _⟩ | ⟨_, _, hr⟩)
        · exact absurd hf h
        · exact word_eq_of_emod ((toInt_ofInt_emod v).trans hr.symm)

/-- `Fit` raises only Overflow, exactly on a value that does not fit under `OVF = fault`. -/
theorem fit_eq_error_iff {v : Int} {r : Raise} :
    fit c v = .error r ↔ ¬ fits64 v ∧ c.ovf = .fault ∧ r = ⟨.overflow, none, none⟩ := by
  unfold fit
  by_cases h : fits64 v
  · rw [if_pos h]
    constructor
    · intro e; cases e
    · rintro ⟨hn, _⟩; exact absurd h hn
  · rw [if_neg h]
    cases ho : c.ovf with
    | fault =>
      simp only [Except.error.injEq]
      exact ⟨fun e => ⟨h, trivial, e.symm⟩, fun e => e.2.2.symm⟩
    | wrap =>
      constructor
      · intro e; cases e
      · rintro ⟨_, e, _⟩; cases e

/-- Settling what has been committed. -/
@[simp] theorem settle_ok (r : StepResult × State) : settle c s (.ok r) = r := rfl

/-- Settling a raise takes the fault. -/
@[simp] theorem settle_error (r : Raise) : settle c s (.error r) = takeFault c s r := rfl

/-- Taking a fault changes the fault register and perhaps the extent, and nothing else (R112, R203). -/
theorem takeFault_sameButFault (c : Config) (s : State) (r : Raise) : SameButFault s (takeFault c s r).2 :=
  ⟨Nat.le_add_right _ _, rfl⟩

/-- Suspending changes nothing but perhaps the extent (R112, R151). -/
theorem suspend_sameButExtent (s : State) : SameButExtent s (suspend s).2 := ⟨Nat.le_add_right _ _, rfl⟩

end Sys2Proof.Machine
end

