-- ==== Sys2Proof/Laws/Exec.lean ====
section
/-! SUPPORT. What each instruction shape can do, once, under any parameters: it commits exactly one effect, or takes exactly one fault,
or suspends. -/

namespace Sys2Proof.Machine

variable {c : Config} {s : State}

/-- What can go wrong before the two values of `ternary` are combined and its cell is known. -/
def TernaryRaises (c : Config) (s : State) (f : Int → Int → Except Raise Word) (a b dst : Param) (r : Raise) : Prop :=
  TernaryFails c s a b dst r ∨
  (dst.mode = .immediate ∧ r = ⟨.illegalWriteTarget, some 3, none⟩ ∧ ∃ x y, ReadsAs c s a x ∧ ReadsAs c s b y) ∨
  ∃ x y n, ReadsAs c s a x ∧ ReadsAs c s b y ∧ TargetIs c s dst n ∧ f x.toInt y.toInt = .error r

/-- The shape of ADD, MUL, LT and EQ commits its result where its operands resolve and the result exists. -/
theorem ternary_commits {f : Int → Int → Except Raise Word} {a b dst : Param} {x y r : Word} {n : Nat}
    (ha : ReadsAs c s a x) (hb : ReadsAs c s b y) (hd : TargetIs c s dst n) (hf : f x.toInt y.toInt = .ok r) :
    ternary c f a b dst s = (.running, commit s [a, b, dst] (s.pc + 4) (s.storeWord n r)) := by
  unfold ternary
  rw [readOperand_eq_ok_iff.2 ha, readOperand_eq_ok_iff.2 hb, writeTarget_eq_ok_iff.2 hd]
  simp only [bind, Except.bind, hf, settle_ok]

/-- It takes the fault of the first of its actions that raises. -/
theorem ternary_faults {f : Int → Int → Except Raise Word} {a b dst : Param} {r : Raise}
    (h : TernaryRaises c s f a b dst r) : ternary c f a b dst s = takeFault c s r := by
  unfold ternary
  obtain ((h | ⟨x, ha, h⟩) | ⟨x, y, ha, hb, h⟩) | ⟨hm, rfl, x, y, ha, hb⟩ | ⟨x, y, n, ha, hb, hd, h⟩ := h
  · rw [readOperand_eq_error_iff.2 h]; rfl
  · rw [readOperand_eq_ok_iff.2 ha, readOperand_eq_error_iff.2 h]; rfl
  · rw [readOperand_eq_ok_iff.2 ha, readOperand_eq_ok_iff.2 hb, writeTarget_eq_error_iff.2 (.inl h)]; rfl
  · rw [readOperand_eq_ok_iff.2 ha, readOperand_eq_ok_iff.2 hb, writeTarget_eq_error_iff.2 (.inr ⟨hm, rfl⟩)]; rfl
  · rw [readOperand_eq_ok_iff.2 ha, readOperand_eq_ok_iff.2 hb, writeTarget_eq_ok_iff.2 hd]
    simp only [bind, Except.bind, h, settle_error]

/-- It does one of the two, always. -/
theorem ternary_cases (c : Config) (s : State) (f : Int → Int → Except Raise Word) (a b dst : Param) :
    (∃ x y n r, ReadsAs c s a x ∧ ReadsAs c s b y ∧ TargetIs c s dst n ∧ f x.toInt y.toInt = .ok r ∧
      ternary c f a b dst s = (.running, commit s [a, b, dst] (s.pc + 4) (s.storeWord n r))) ∨
    ∃ r, TernaryRaises c s f a b dst r ∧ ternary c f a b dst s = takeFault c s r := by
  have fails : ∀ {r}, TernaryRaises c s f a b dst r →
      ∃ r, TernaryRaises c s f a b dst r ∧ ternary c f a b dst s = takeFault c s r := fun h => ⟨_, h, ternary_faults h⟩
  cases ha : readOperand c 1 a s with
  | error r => exact .inr (fails (.inl (.inl (.inl (readOperand_eq_error_iff.1 ha)))))
  | ok x =>
    have ha := readOperand_eq_ok_iff.1 ha
    cases hb : readOperand c 2 b s with
    | error r => exact .inr (fails (.inl (.inl (.inr ⟨x, ha, readOperand_eq_error_iff.1 hb⟩))))
    | ok y =>
      have hb := readOperand_eq_ok_iff.1 hb
      cases hd : writeTarget c 3 dst s with
      | error r =>
        obtain h | ⟨hm, rfl⟩ := writeTarget_eq_error_iff.1 hd
        · exact .inr (fails (.inl (.inr ⟨x, y, ha, hb, h⟩)))
        · exact .inr (fails (.inr (.inl ⟨hm, rfl, x, y, ha, hb⟩)))
      | ok n =>
        have hd := writeTarget_eq_ok_iff.1 hd
        cases hf : f x.toInt y.toInt with
        | error r => exact .inr (fails (.inr (.inr ⟨x, y, n, ha, hb, hd, hf⟩)))
        | ok r => exact .inl ⟨x, y, n, r, ha, hb, hd, hf, ternary_commits ha hb hd hf⟩

/-- IN takes its target's fault, whether or not the FIFO is empty. -/
theorem inpUnder_faults {dst : Param} {r : Raise}
    (h : ResolveFails c s 1 dst r ∨ (dst.mode = .immediate ∧ r = ⟨.illegalWriteTarget, some 1, none⟩)) :
    inpUnder c dst s = takeFault c s r := by
  unfold inpUnder
  rw [writeTarget_eq_error_iff.2 h]; rfl

/-- IN suspends on an empty FIFO. -/
theorem inpUnder_suspends {dst : Param} {n : Nat} (hd : TargetIs c s dst n) (hq : s.inFifo = []) :
    inpUnder c dst s = suspend s := by
  unfold inpUnder
  rw [writeTarget_eq_ok_iff.2 hd, hq]; rfl

/-- IN consumes the head of the FIFO. -/
theorem inpUnder_commits {dst : Param} {n : Nat} {v : Word} {rest : List Word} (hd : TargetIs c s dst n)
    (hq : s.inFifo = v :: rest) :
    inpUnder c dst s =
      (.running, commit s [dst] (s.pc + 2) (((s.storeWord n v).setFifo rest).noteInput v)) := by
  unfold inpUnder
  rw [writeTarget_eq_ok_iff.2 hd, hq]; rfl

/-- IN does one of the three, always. -/
theorem inpUnder_cases (c : Config) (s : State) (dst : Param) :
    (∃ n v rest, TargetIs c s dst n ∧ s.inFifo = v :: rest ∧
      inpUnder c dst s =
        (.running, commit s [dst] (s.pc + 2) (((s.storeWord n v).setFifo rest).noteInput v))) ∨
    (∃ n, TargetIs c s dst n ∧ s.inFifo = [] ∧ inpUnder c dst s = suspend s) ∨
    ∃ r, (ResolveFails c s 1 dst r ∨ (dst.mode = .immediate ∧ r = ⟨.illegalWriteTarget, some 1, none⟩)) ∧
      inpUnder c dst s = takeFault c s r := by
  cases hd : writeTarget c 1 dst s with
  | error r =>
    have h := writeTarget_eq_error_iff.1 hd
    exact .inr (.inr ⟨r, h, inpUnder_faults h⟩)
  | ok n =>
    have hd := writeTarget_eq_ok_iff.1 hd
    cases hq : s.inFifo with
    | nil => exact .inr (.inl ⟨n, hd, rfl, inpUnder_suspends hd hq⟩)
    | cons v rest => exact .inl ⟨n, v, rest, hd, rfl, inpUnder_commits hd hq⟩

/-- OUT appends where its operand resolves and the log has room. -/
theorem outUnder_commits {a : Param} {x : Word} (ha : ReadsAs c s a x) (hr : Config.full c.outCap s.outLog.length = false) :
    outUnder c a s = (.running, commit s [a] (s.pc + 2) (s.appendOut x)) := by
  unfold outUnder
  rw [readOperand_eq_ok_iff.2 ha]
  simp [bind, Except.bind, hr]

/-- OUT takes its operand's fault, and then a full log's. -/
theorem outUnder_faults {a : Param} {r : Raise}
    (h : ResolveFails c s 1 a r ∨
      ∃ x, ReadsAs c s a x ∧ Config.full c.outCap s.outLog.length = true ∧ r = ⟨.capacityExceeded, none, none⟩) :
    outUnder c a s = takeFault c s r := by
  unfold outUnder
  obtain h | ⟨x, ha, hr, rfl⟩ := h
  · rw [readOperand_eq_error_iff.2 h]; rfl
  · rw [readOperand_eq_ok_iff.2 ha]
    simp [bind, Except.bind, hr]

/-- OUT does one of the two, always. -/
theorem outUnder_cases (c : Config) (s : State) (a : Param) :
    (∃ x, ReadsAs c s a x ∧ Config.full c.outCap s.outLog.length = false ∧
      outUnder c a s = (.running, commit s [a] (s.pc + 2) (s.appendOut x))) ∨
    ∃ r, (ResolveFails c s 1 a r ∨
        ∃ x, ReadsAs c s a x ∧ Config.full c.outCap s.outLog.length = true ∧ r = ⟨.capacityExceeded, none, none⟩) ∧
      outUnder c a s = takeFault c s r := by
  cases ha : readOperand c 1 a s with
  | error r =>
    have h := readOperand_eq_error_iff.1 ha
    exact .inr ⟨r, .inl h, outUnder_faults (.inl h)⟩
  | ok x =>
    have ha := readOperand_eq_ok_iff.1 ha
    cases hr : Config.full c.outCap s.outLog.length with
    | true => exact .inr ⟨_, .inr ⟨x, ha, rfl, rfl⟩, outUnder_faults (.inr ⟨x, ha, hr, rfl⟩)⟩
    | false => exact .inl ⟨x, ha, rfl, outUnder_commits ha hr⟩

/-- A taken jump to a non-negative target goes there. -/
theorem jumpWhen_taken {taken : Int → Bool} {a b : Param} {x y : Word} (ha : ReadsAs c s a x) (hb : ReadsAs c s b y)
    (ht : taken x.toInt = true) (hy : 0 ≤ y.toInt) :
    jumpWhen c taken a b s = (.running, commit s [a, b] y.toInt.toNat s) := by
  unfold jumpWhen
  rw [readOperand_eq_ok_iff.2 ha, readOperand_eq_ok_iff.2 hb]
  simp [bind, Except.bind, ht, not_lt.2 hy]

/-- A jump that is not taken advances by 3, whatever its target. -/
theorem jumpWhen_falls {taken : Int → Bool} {a b : Param} {x y : Word} (ha : ReadsAs c s a x) (hb : ReadsAs c s b y)
    (ht : taken x.toInt = false) : jumpWhen c taken a b s = (.running, commit s [a, b] (s.pc + 3) s) := by
  unfold jumpWhen
  rw [readOperand_eq_ok_iff.2 ha, readOperand_eq_ok_iff.2 hb]
  simp [bind, Except.bind, ht]

/-- What can go wrong with a jump. -/
def JumpRaises (c : Config) (s : State) (taken : Int → Bool) (a b : Param) (r : Raise) : Prop :=
  ReadsFail c s a b r ∨
  ∃ x y, ReadsAs c s a x ∧ ReadsAs c s b y ∧ taken x.toInt = true ∧ y.toInt < 0 ∧ r = ⟨.invalidAddress, some 2, some y.toInt⟩

/-- A jump takes its operands' faults, and a taken one the fault of a negative target. -/
theorem jumpWhen_faults {taken : Int → Bool} {a b : Param} {r : Raise} (h : JumpRaises c s taken a b r) :
    jumpWhen c taken a b s = takeFault c s r := by
  unfold jumpWhen
  obtain (h | ⟨x, ha, h⟩) | ⟨x, y, ha, hb, ht, hy, rfl⟩ := h
  · rw [readOperand_eq_error_iff.2 h]; rfl
  · rw [readOperand_eq_ok_iff.2 ha, readOperand_eq_error_iff.2 h]; rfl
  · rw [readOperand_eq_ok_iff.2 ha, readOperand_eq_ok_iff.2 hb]
    simp [bind, Except.bind, ht, hy]

/-- A jump does one of the three, always. -/
theorem jumpWhen_cases (c : Config) (s : State) (taken : Int → Bool) (a b : Param) :
    (∃ x y, ReadsAs c s a x ∧ ReadsAs c s b y ∧ taken x.toInt = true ∧ 0 ≤ y.toInt ∧
      jumpWhen c taken a b s = (.running, commit s [a, b] y.toInt.toNat s)) ∨
    (∃ x y, ReadsAs c s a x ∧ ReadsAs c s b y ∧ taken x.toInt = false ∧
      jumpWhen c taken a b s = (.running, commit s [a, b] (s.pc + 3) s)) ∨
    ∃ r, JumpRaises c s taken a b r ∧ jumpWhen c taken a b s = takeFault c s r := by
  have fails : ∀ {r}, JumpRaises c s taken a b r →
      ∃ r, JumpRaises c s taken a b r ∧ jumpWhen c taken a b s = takeFault c s r := fun h => ⟨_, h, jumpWhen_faults h⟩
  cases ha : readOperand c 1 a s with
  | error r => exact .inr (.inr (fails (.inl (.inl (readOperand_eq_error_iff.1 ha)))))
  | ok x =>
    have ha := readOperand_eq_ok_iff.1 ha
    cases hb : readOperand c 2 b s with
    | error r => exact .inr (.inr (fails (.inl (.inr ⟨x, ha, readOperand_eq_error_iff.1 hb⟩))))
    | ok y =>
      have hb := readOperand_eq_ok_iff.1 hb
      cases ht : taken x.toInt with
      | false => exact .inr (.inl ⟨x, y, ha, hb, ht, jumpWhen_falls ha hb ht⟩)
      | true =>
        by_cases hy : y.toInt < 0
        · exact .inr (.inr (fails (.inr ⟨x, y, ha, hb, ht, hy, rfl⟩)))
        · exact .inl ⟨x, y, ha, hb, ht, not_lt.1 hy, jumpWhen_taken ha hb ht (not_lt.1 hy)⟩

/-- ARB moves the base where its operand resolves and the sum fits. -/
theorem arbUnder_commits {a : Param} {x r : Word} (ha : ReadsAs c s a x) (hf : FitsAs c (s.rb.toInt + x.toInt) r) :
    arbUnder c a s = (.running, commit s [a] (s.pc + 2) (s.setRb r)) := by
  unfold arbUnder
  rw [readOperand_eq_ok_iff.2 ha]
  simp only [bind, Except.bind, fit_eq_ok_iff.2 hf, settle_ok]

/-- What can go wrong with ARB. -/
def ArbRaises (c : Config) (s : State) (a : Param) (r : Raise) : Prop :=
  ResolveFails c s 1 a r ∨
  ∃ x, ReadsAs c s a x ∧ ¬ fits64 (s.rb.toInt + x.toInt) ∧ c.ovf = .fault ∧ r = ⟨.overflow, none, none⟩

/-- ARB takes its operand's fault, and then Overflow. -/
theorem arbUnder_faults {a : Param} {r : Raise} (h : ArbRaises c s a r) : arbUnder c a s = takeFault c s r := by
  unfold arbUnder
  obtain h | ⟨x, ha, h⟩ := h
  · rw [readOperand_eq_error_iff.2 h]; rfl
  · rw [readOperand_eq_ok_iff.2 ha]
    simp only [bind, Except.bind, fit_eq_error_iff.2 h, settle_error]

/-- ARB does one of the two, always. -/
theorem arbUnder_cases (c : Config) (s : State) (a : Param) :
    (∃ x r, ReadsAs c s a x ∧ FitsAs c (s.rb.toInt + x.toInt) r ∧
      arbUnder c a s = (.running, commit s [a] (s.pc + 2) (s.setRb r))) ∨
    ∃ r, ArbRaises c s a r ∧ arbUnder c a s = takeFault c s r := by
  cases ha : readOperand c 1 a s with
  | error r =>
    have h := readOperand_eq_error_iff.1 ha
    exact .inr ⟨r, .inl h, arbUnder_faults (.inl h)⟩
  | ok x =>
    have ha := readOperand_eq_ok_iff.1 ha
    cases hf : fit c (s.rb.toInt + x.toInt) with
    | error r =>
      have hf := fit_eq_error_iff.1 hf
      exact .inr ⟨r, .inr ⟨x, ha, hf⟩, arbUnder_faults (.inr ⟨x, ha, hf⟩)⟩
    | ok r =>
      have hf := fit_eq_ok_iff.1 hf
      exact .inl ⟨x, r, ha, hf, arbUnder_commits ha hf⟩

/-- ADD is the shared shape with the checked sum. -/
theorem execUnder_add (a b dst : Param) : execUnder c (.add a b dst) s = ternary c (fun x y => fit c (x + y)) a b dst s := rfl

/-- MUL is the shared shape with the checked product. -/
theorem execUnder_mul (a b dst : Param) : execUnder c (.mul a b dst) s = ternary c (fun x y => fit c (x * y)) a b dst s := rfl

/-- LT is the shared shape with the signed comparison. -/
theorem execUnder_lt (a b dst : Param) :
    execUnder c (.lt a b dst) s = ternary c (fun x y => .ok (truth (decide (x < y)))) a b dst s := rfl

/-- EQ is the shared shape with equality. -/
theorem execUnder_eq (a b dst : Param) :
    execUnder c (.eq a b dst) s = ternary c (fun x y => .ok (truth (decide (x = y)))) a b dst s := rfl

/-- JT is the shared jump, taken on a non-zero condition. -/
theorem execUnder_jt (a b : Param) : execUnder c (.jt a b) s = jumpWhen c (fun x => decide (x ≠ 0)) a b s := rfl

/-- JF is the shared jump, taken on a zero condition. -/
theorem execUnder_jf (a b : Param) : execUnder c (.jf a b) s = jumpWhen c (fun x => decide (x = 0)) a b s := rfl

/-- IN, OUT, ARB and HALT are their own meanings. -/
theorem execUnder_inp (dst : Param) : execUnder c (.inp dst) s = inpUnder c dst s := rfl
theorem execUnder_out (a : Param) : execUnder c (.out a) s = outUnder c a s := rfl
theorem execUnder_arb (a : Param) : execUnder c (.arb a) s = arbUnder c a s := rfl
theorem execUnder_halt : execUnder c .halt s = haltUnder s := rfl

/-- The hardware's meaning of an instruction is the controller's, at the hardware's parameters, seen through the interface. -/
theorem exec_eq_answer (i : Instr) (s : State) : exec i s = answer (execUnder Config.hardware i s) := by
  cases i <;> rfl

/-- The hardware's step is the controller's, at the hardware's parameters, seen through the interface. -/
theorem step_eq_answer (s : State) : step s = answer (stepUnder Config.hardware s) := by
  unfold step stepUnder
  cases stoppedResult s with
  | some r => rfl
  | none =>
    cases fetchInstr Config.hardware s with
    | error r => rfl
    | ok i => exact exec_eq_answer i s

end Sys2Proof.Machine
end

