-- ==== Sys2Proof/Laws/PerInstr.lean ====
section
/-! SUPPORT. A law of every instruction as syntax, one lemma per constructor: its canonical encoding is as long as the instruction
(spec/30_encoding.md R70, R81, R83). -/

namespace Sys2Proof.Laws.EncodeLength

/-- The canonical encoding has the instruction's length, one word and its parameter words. -/
def Statement (i : Instr) : Prop := (encode i).length = i.length ∧ i.length ≤ maxWords

theorem add (a b dst : Param) : Statement (.add a b dst) := ⟨rfl, by simp [Instr.length, Instr.params, maxWords]⟩
theorem mul (a b dst : Param) : Statement (.mul a b dst) := ⟨rfl, by simp [Instr.length, Instr.params, maxWords]⟩
theorem inp (dst : Param) : Statement (.inp dst) := ⟨rfl, by simp [Instr.length, Instr.params, maxWords]⟩
theorem out (a : Param) : Statement (.out a) := ⟨rfl, by simp [Instr.length, Instr.params, maxWords]⟩
theorem jt (a b : Param) : Statement (.jt a b) := ⟨rfl, by simp [Instr.length, Instr.params, maxWords]⟩
theorem jf (a b : Param) : Statement (.jf a b) := ⟨rfl, by simp [Instr.length, Instr.params, maxWords]⟩
theorem lt (a b dst : Param) : Statement (.lt a b dst) := ⟨rfl, by simp [Instr.length, Instr.params, maxWords]⟩
theorem eq (a b dst : Param) : Statement (.eq a b dst) := ⟨rfl, by simp [Instr.length, Instr.params, maxWords]⟩
theorem arb (a : Param) : Statement (.arb a) := ⟨rfl, by simp [Instr.length, Instr.params, maxWords]⟩
theorem halt : Statement .halt := ⟨rfl, by simp [Instr.length, Instr.params, maxWords]⟩

end Sys2Proof.Laws.EncodeLength
end

