-- ==== Sys2Proof/Laws/Step.lean ====
section
/-! SUPPORT. What a step can do, once: nothing, to a stopped instance; the fault its fetch raises; or its instruction, which commits,
suspends or faults. -/

namespace Sys2Proof.Machine

variable {c : Config} {s : State}

/-- A stopped instance has a step result of its own. -/
theorem stoppedResult_isSome_iff : (stoppedResult s).isSome = true ↔ Stopped s := by
  unfold stoppedResult Stopped
  cases s.fault with
  | some r => simp
  | none => cases s.halted <;> simp

/-- An instance that can step has neither halted nor faulted. -/
theorem stoppedResult_eq_none_iff : stoppedResult s = none ↔ s.halted = false ∧ s.fault = none := by
  unfold stoppedResult
  cases s.fault with
  | some r => simp
  | none => cases s.halted <;> simp

/-- Fetching answers an instruction exactly where the word at `pc` decodes and every parameter word exists. -/
theorem fetchInstr_eq_ok_iff {i : Instr} :
    fetchInstr c s = .ok i ↔
      s.pc < c.memLimit ∧ ∃ h, decodeHeader (wordAt s 0) = .ok h ∧ beyondParam c s h.nparams = none ∧ i = h.withParams (wordAt s) := by
  unfold fetchInstr
  by_cases hp : c.memLimit ≤ s.pc
  · rw [if_pos hp]
    constructor
    · intro e; cases e
    · rintro ⟨h, -⟩; omega
  · rw [if_neg hp]
    cases hd : decodeHeader (wordAt s 0) with
    | error r => simp
    | ok h => cases hb : beyondParam c s h.nparams with
      | some k => simp [hb]
      | none => simp [hb, eq_comm]; omega

/-- No parameter word is beyond the memory exactly where the last one is not. -/
theorem beyondParam_eq_none_iff {n : Nat} : beyondParam c s n = none ↔ n = 0 ∨ s.pc + n < c.memLimit := by
  simp only [beyondParam, List.find?_eq_none, List.mem_map, List.mem_range, decide_eq_true_eq, not_le, forall_exists_index, and_imp,
    forall_apply_eq_imp_iff₂]
  constructor
  · intro h
    cases n with
    | zero => exact .inl rfl
    | succ n => exact .inr (h n (by omega))
  · rintro (rfl | h) j hj <;> omega

/-- The parameter index reported is the smallest whose word is beyond the memory. -/
theorem beyondParam_eq_some {n k : Nat} (h : beyondParam c s n = some k) :
    1 ≤ k ∧ k ≤ n ∧ c.memLimit ≤ s.pc + k ∧ ∀ j, 1 ≤ j → j < k → s.pc + j < c.memLimit := by
  obtain ⟨hk, as, bs, he, ha⟩ := List.find?_eq_some_iff_append.1 h
  have hmem : k ∈ (List.range n).map (· + 1) := he ▸ List.mem_append_right _ List.mem_cons_self
  obtain ⟨j, hj, rfl⟩ := List.mem_map.1 hmem
  rw [List.mem_range] at hj
  refine ⟨by omega, by omega, of_decide_eq_true hk, fun i h1 h2 => ?_⟩
  have hi : i ∈ as := by
    have hlen := congrArg List.length he
    have hget : ((List.range n).map (· + 1))[i - 1]? = some i := by
      rw [List.getElem?_map, List.getElem?_range (by omega)]
      simp; omega
    have hpos : ((List.range n).map (· + 1))[as.length]? = some (j + 1) := by rw [he]; simp
    have hjl : as.length = j := by
      have hl : as.length < n := by simp at hlen; omega
      rw [List.getElem?_map, List.getElem?_range hl] at hpos
      simpa using hpos
    rw [he, List.getElem?_append_left (by omega)] at hget
    exact List.mem_of_getElem? hget
  have := ha i hi
  simpa using this

/-- One step does one of three things. -/
theorem stepUnder_cases (c : Config) (s : State) :
    (∃ r, stoppedResult s = some r ∧ stepUnder c s = (r, s)) ∨
    (stoppedResult s = none ∧ ∃ r, fetchInstr c s = .error r ∧ stepUnder c s = takeFault c s r) ∨
    (stoppedResult s = none ∧ ∃ i, fetchInstr c s = .ok i ∧ stepUnder c s = execUnder c i s) := by
  unfold stepUnder
  cases hs : stoppedResult s with
  | some r => exact .inl ⟨r, rfl, rfl⟩
  | none =>
    cases hf : fetchInstr c s with
    | error r => exact .inr (.inl ⟨rfl, r, rfl, rfl⟩)
    | ok i => exact .inr (.inr ⟨rfl, i, rfl, rfl⟩)

/-- An instruction commits, suspends or faults; a committed one leaves the halted flag to HALT and the fault register alone. -/
theorem execUnder_shape (c : Config) (i : Instr) (s : State) :
    (∃ r w n, execUnder c i s = (r, commit s i.params n w) ∧ w.fault = s.fault ∧ w.memLen = s.memLen ∧ w.pc = s.pc ∧
      ((r = .running ∧ w.halted = s.halted) ∨ (r = .halted ∧ i = .halt ∧ w = s.setHalted))) ∨
    ((∃ d, i = .inp d) ∧ s.inFifo = [] ∧ execUnder c i s = suspend s) ∨
    ∃ r, execUnder c i s = takeFault c s r := by
  have tern : ∀ {f : Int → Int → Except Raise Word} {a b d : Param},
      (∃ r w n, ternary c f a b d s = (r, commit s [a, b, d] n w) ∧ w.fault = s.fault ∧ w.memLen = s.memLen ∧ w.pc = s.pc ∧
        (r = .running ∧ w.halted = s.halted)) ∨ ∃ r, ternary c f a b d s = takeFault c s r := by
    intro f a b d
    obtain ⟨x, y, n, r, -, -, -, -, e⟩ | ⟨r, -, e⟩ := ternary_cases c s f a b d
    · exact .inl ⟨_, _, _, e, rfl, rfl, rfl, rfl, rfl⟩
    · exact .inr ⟨r, e⟩
  have jump : ∀ {f : Int → Bool} {a b : Param},
      (∃ r w n, jumpWhen c f a b s = (r, commit s [a, b] n w) ∧ w.fault = s.fault ∧ w.memLen = s.memLen ∧ w.pc = s.pc ∧
        (r = .running ∧ w.halted = s.halted)) ∨ ∃ r, jumpWhen c f a b s = takeFault c s r := by
    intro f a b
    obtain ⟨x, y, -, -, -, -, e⟩ | ⟨x, y, -, -, -, e⟩ | ⟨r, -, e⟩ := jumpWhen_cases c s f a b
    · exact .inl ⟨_, _, _, e, rfl, rfl, rfl, rfl, rfl⟩
    · exact .inl ⟨_, _, _, e, rfl, rfl, rfl, rfl, rfl⟩
    · exact .inr ⟨r, e⟩
  cases i with
  | add a b d =>
    obtain ⟨r, w, n, e, h1, h2, h3, h4⟩ | h := tern (f := fun x y => fit c (x + y)) (a := a) (b := b) (d := d)
    · exact .inl ⟨r, w, n, e, h1, h2, h3, .inl h4⟩
    · exact .inr (.inr h)
  | mul a b d =>
    obtain ⟨r, w, n, e, h1, h2, h3, h4⟩ | h := tern (f := fun x y => fit c (x * y)) (a := a) (b := b) (d := d)
    · exact .inl ⟨r, w, n, e, h1, h2, h3, .inl h4⟩
    · exact .inr (.inr h)
  | lt a b d =>
    obtain ⟨r, w, n, e, h1, h2, h3, h4⟩ | h := tern (f := fun x y => .ok (truth (decide (x < y)))) (a := a) (b := b) (d := d)
    · exact .inl ⟨r, w, n, e, h1, h2, h3, .inl h4⟩
    · exact .inr (.inr h)
  | eq a b d =>
    obtain ⟨r, w, n, e, h1, h2, h3, h4⟩ | h := tern (f := fun x y => .ok (truth (decide (x = y)))) (a := a) (b := b) (d := d)
    · exact .inl ⟨r, w, n, e, h1, h2, h3, .inl h4⟩
    · exact .inr (.inr h)
  | jt a b =>
    obtain ⟨r, w, n, e, h1, h2, h3, h4⟩ | h := jump (f := fun x => decide (x ≠ 0)) (a := a) (b := b)
    · exact .inl ⟨r, w, n, e, h1, h2, h3, .inl h4⟩
    · exact .inr (.inr h)
  | jf a b =>
    obtain ⟨r, w, n, e, h1, h2, h3, h4⟩ | h := jump (f := fun x => decide (x = 0)) (a := a) (b := b)
    · exact .inl ⟨r, w, n, e, h1, h2, h3, .inl h4⟩
    · exact .inr (.inr h)
  | inp d =>
    obtain ⟨n, v, rest, -, -, e⟩ | ⟨n, -, hq, e⟩ | ⟨r, -, e⟩ := inpUnder_cases c s d
    · exact .inl ⟨_, _, _, e, rfl, rfl, rfl, .inl ⟨rfl, rfl⟩⟩
    · exact .inr (.inl ⟨⟨d, rfl⟩, hq, e⟩)
    · exact .inr (.inr ⟨r, e⟩)
  | out a =>
    obtain ⟨x, -, -, e⟩ | ⟨r, -, e⟩ := outUnder_cases c s a
    · exact .inl ⟨_, _, _, e, rfl, rfl, rfl, .inl ⟨rfl, rfl⟩⟩
    · exact .inr (.inr ⟨r, e⟩)
  | arb a =>
    obtain ⟨x, r, -, -, e⟩ | ⟨r, -, e⟩ := arbUnder_cases c s a
    · exact .inl ⟨_, _, _, e, rfl, rfl, rfl, .inl ⟨rfl, rfl⟩⟩
    · exact .inr (.inr ⟨r, e⟩)
  | halt => exact .inl ⟨_, _, _, rfl, rfl, rfl, rfl, .inr ⟨rfl, rfl, rfl⟩⟩

/-- No step shrinks the tape (R30). -/
theorem stepUnder_memLen (c : Config) (s : State) : s.memLen ≤ (stepUnder c s).2.memLen := by
  obtain ⟨r, -, e⟩ | ⟨-, r, -, e⟩ | ⟨-, i, -, e⟩ := stepUnder_cases c s
  · rw [e]
  · rw [e]; exact (takeFault_sameButFault c s r).1
  · rw [e]
    obtain ⟨r, w, n, h, -⟩ | ⟨-, -, h⟩ | ⟨r, h⟩ := execUnder_shape c i s
    · rw [h]; exact memLen_le_extentAfter _
    · rw [h]; exact (suspend_sameButExtent s).1
    · rw [h]; exact (takeFault_sameButFault c s r).1

end Sys2Proof.Machine
end

