-- ==== Sys2Proof/Tests/Slice0.lean ====
section
/-! SUPPORT. The model's own tests, with results from spec/95_test_vectors.md or worked by hand from the rule named, and for every
statement with hypotheses a witness that meets them. -/

namespace Sys2Proof.Tests

open Machine

/-! ### Well-formedness: each check refuses an Immediate write operand (R76), and passes the other modes -/

theorem test_wf_add : WellFormed (.add ⟨.position, 0⟩ ⟨.position, 0⟩ ⟨.immediate, 0⟩) = false ∧
    WellFormed (.add ⟨.immediate, 0⟩ ⟨.immediate, 0⟩ ⟨.relative, -1⟩) = true := by decide
theorem test_wf_mul : WellFormed (.mul ⟨.position, 0⟩ ⟨.position, 0⟩ ⟨.immediate, 0⟩) = false ∧
    WellFormed (.mul ⟨.relative, 0⟩ ⟨.immediate, 0⟩ ⟨.position, -1⟩) = true := by decide
theorem test_wf_inp : WellFormed (.inp ⟨.immediate, 0⟩) = false ∧ WellFormed (.inp ⟨.position, 0⟩) = true := by decide
theorem test_wf_lt : WellFormed (.lt ⟨.position, 0⟩ ⟨.position, 0⟩ ⟨.immediate, 0⟩) = false ∧
    WellFormed (.lt ⟨.position, 0⟩ ⟨.immediate, 0⟩ ⟨.relative, 0⟩) = true := by decide
theorem test_wf_eq : WellFormed (.eq ⟨.position, 0⟩ ⟨.position, 0⟩ ⟨.immediate, 0⟩) = false ∧
    WellFormed (.eq ⟨.immediate, 0⟩ ⟨.position, 0⟩ ⟨.position, 0⟩) = true := by decide

/-! ### Decoding: words written out from R71's digits and R80's rows (95_test_vectors.md DE1 to DE36) -/

/-- R85's example: 21001 is opcode 01, modes 0, 1, 2 of parameters 1, 2, 3. -/
theorem test_decode_add :
    decode [21001, 9, -1, 3] = .ok (.add ⟨.position, 9⟩ ⟨.immediate, -1⟩ ⟨.relative, 3⟩, []) := by rfl
/-- DE3: the thousands digit is the mode of parameter 2. -/
theorem test_decode_mul : decode [1002, 4, 3, 4] = .ok (.mul ⟨.position, 4⟩ ⟨.immediate, 3⟩ ⟨.position, 4⟩, []) := by rfl
theorem test_decode_inp : decode [203, 1, 99] = .ok (.inp ⟨.relative, 1⟩, [99]) := by rfl
/-- DE18: digit 9 belongs to an absent parameter. -/
theorem test_decode_out : decode [9004, 0] = .ok (.out ⟨.position, 0⟩, []) := by rfl
theorem test_decode_jt : decode [1105, 1, 7] = .ok (.jt ⟨.immediate, 1⟩ ⟨.immediate, 7⟩, []) := by rfl
theorem test_decode_jf : decode [2006, 4, 5] = .ok (.jf ⟨.position, 4⟩ ⟨.relative, 5⟩, []) := by rfl
theorem test_decode_lt : decode [1107, 3, 5, 0] = .ok (.lt ⟨.immediate, 3⟩ ⟨.immediate, 5⟩ ⟨.position, 0⟩, []) := by rfl
theorem test_decode_eq : decode [21108, 7, 7, 2] = .ok (.eq ⟨.immediate, 7⟩ ⟨.immediate, 7⟩ ⟨.relative, 2⟩, []) := by rfl
theorem test_decode_arb : decode [109, -5] = .ok (.arb ⟨.immediate, -5⟩, []) := by rfl
/-- DE17: HALT has no parameters, so its mode digits are ignored, even 3. -/
theorem test_decode_halt : decode [10399] = .ok (.halt, []) := by rfl
/-- DE22 to DE26. -/
theorem test_decode_unknown :
    decodeHeader 0 = .error ⟨.unknownOpcode, none, some 0⟩ ∧ decodeHeader 98 = .error ⟨.unknownOpcode, none, some 98⟩ ∧
    decodeHeader 12345 = .error ⟨.unknownOpcode, none, some 45⟩ ∧ decodeHeader (-1001) = .error ⟨.unknownOpcode, none, none⟩ ∧
    decodeHeader (-9223372036854775808) = .error ⟨.unknownOpcode, none, none⟩ := ⟨rfl, rfl, rfl, rfl, rfl⟩
/-- DE29, DE30, DE32, DE34 and DE36. -/
theorem test_decode_bad_modes :
    decodeHeader 20301 = .error ⟨.illegalMode, some 1, some 3⟩ ∧ decodeHeader 31101 = .error ⟨.illegalMode, some 3, some 3⟩ ∧
    decodeHeader 11101 = .error ⟨.illegalWriteTarget, some 3, none⟩ ∧ decodeHeader 103 = .error ⟨.illegalWriteTarget, some 1, none⟩ ∧
    decodeHeader 9223372036854775807 = .error ⟨.illegalMode, some 1, some 8⟩ := ⟨rfl, rfl, rfl, rfl, rfl⟩
/-- A list that ends inside an instruction holds none. -/
theorem test_decode_truncated : decode [1, 0, 0] = .error .truncated ∧ decode [] = .error .truncated := ⟨rfl, rfl⟩
/-- R83, by hand: 1 + 0*100 + 1*1000 + 2*10000. -/
theorem test_encode : encode (.add ⟨.position, 9⟩ ⟨.immediate, -1⟩ ⟨.relative, 3⟩) = [21001, 9, -1, 3] := by decide
/-- The opcode table's numbering: bit 64 is the first bit of the second word; bits above `nbits` are 0. -/
theorem test_table_words :
    decodeTableWord 128 (104 + 5 * 2 ^ 64) = some (.out ⟨.immediate, 5⟩) ∧ decodeTableWord 64 (104 + 5 * 2 ^ 64) = some (.out ⟨.immediate, 0⟩) ∧
    decodeTableWord 256 (1101 + 2 * 2 ^ 64 + 3 * 2 ^ 128 + 5 * 2 ^ 192) = some (.add ⟨.immediate, 2⟩ ⟨.immediate, 3⟩ ⟨.position, 5⟩) ∧
    decodeTableWord 64 0 = none := ⟨rfl, rfl, rfl, rfl⟩

/-! ### One step on a loaded program (95_test_vectors.md, the vector each test names) -/

/-- A loaded program with a relative base. -/
def loaded (P : List Word) (rb : Word := 0) : State := { State.load P with rb := rb }

/-- The state after one step of the hardware. -/
def after (s : State) : State := (stepUnder Config.hardware s).2

/-- The step result. -/
def result (s : State) : StepResult := (stepUnder Config.hardware s).1

/-- The hardware. -/
abbrev hw : Config := Config.hardware

/-- A small core: 8 cells, wrapping, one place in each queue. -/
def small : Config := ⟨8, .wrap, some 1, some 1, 1⟩

/-- AD1. -/
theorem test_add : (after (loaded [1101, 2, 3, 5, 99])).mem.get 5 = 5 ∧ (after (loaded [1101, 2, 3, 5, 99])).pc = 4 := by decide
/-- AD4: 2^63 - 1 plus 1. -/
theorem test_add_overflow :
    (after (loaded [1101, 9223372036854775807, 1, 0, 99])).fault = some ⟨.overflow, 0, some 1101, none, none⟩ := by decide
/-- MU8. -/
theorem test_mul : (after (loaded [1002, 4, 3, 4, 33])).mem.get 4 = 99 := by decide
/-- MU6: 2^32 squared. -/
theorem test_mul_overflow : result (loaded [1102, 4294967296, 4294967296, 0, 99]) = .faulted .overflow := by decide
/-- IO7's second step: address -1 + 1. -/
theorem test_inp :
    (after { loaded [203, 1, 99] (-1) with inFifo := [77, 8] }).mem.get 0 = 77 ∧
    (after { loaded [203, 1, 99] (-1) with inFifo := [77, 8] }).inFifo = [8] := by decide
/-- IO2. -/
theorem test_inp_empty : result (loaded [3, 0, 99]) = .awaitingInput ∧ (after (loaded [3, 0, 99])).pc = 0 := by decide
/-- OU3 and OU1. -/
theorem test_out : (after (loaded [4, 100, 99])).outLog = [0] ∧ (after (loaded [104, -5, 99])).outLog = [-5] := by decide
/-- A taken jump, and one that falls through past a negative target (R160, R162). -/
theorem test_jt : (after (loaded [1105, -1, 7])).pc = 7 ∧ (after (loaded [1105, 0, -7])).pc = 3 := by decide
theorem test_jt_negative :
    (after (loaded [1105, 1, -7])).fault = some ⟨.invalidAddress, 0, some 1105, some 2, some (-7)⟩ := by decide
theorem test_jf : (after (loaded [1106, 0, 4])).pc = 4 ∧ (after (loaded [1106, -1, 4])).pc = 3 := by decide
/-- The order is the signed one. -/
theorem test_lt : (after (loaded [1107, -1, 0, 9])).mem.get 9 = 1 ∧ (after (loaded [1107, 5, 5, 0])).mem.get 0 = 0 := by decide
theorem test_eq : (after (loaded [1108, 7, 7, 9])).mem.get 9 = 1 ∧ (after (loaded [1108, 7, 8, 0])).mem.get 0 = 0 := by decide
/-- R180's example, and a Relative operand read with the old base: rb 1, and the word 3 at address 2. -/
theorem test_arb : (after (loaded [109, 19] 2000)).rb = 2019 ∧ (after (loaded [209, 1, 3] 1)).rb = 4 := by decide
theorem test_arb_overflow : result (loaded [109, -1] (-9223372036854775808)) = .faulted .overflow := by decide
/-- R190. -/
theorem test_halt : result (loaded [99]) = .halted ∧ (after (loaded [99])).pc = 1 ∧ (after (loaded [99])).halted = true := by decide
/-- Reset with nothing loaded: the first word is 0, so UnknownOpcode with opcode value 0 (DE22). -/
theorem test_reset : (after State.reset).fault = some ⟨.unknownOpcode, 0, some 0, none, some 0⟩ := by decide
/-- A placed instruction is the next step's. -/
theorem test_withFetchWord :
    step (State.reset.withFetchWord 128 (104 + 5 * 2 ^ 64)) = exec (.out ⟨.immediate, 5⟩) (State.reset.withFetchWord 128 (104 + 5 * 2 ^ 64)) ∧
    (State.reset.withFetchWord 128 (104 + 5 * 2 ^ 64)).mem = [(0, 104), (1, 5)] := ⟨rfl, by decide⟩
/-- W12: a host patch is the next step's operand. -/
theorem test_write_addr :
    (writeAddr Config.hardware 1 4 0 (loaded [1, 0, 0, 0, 99])).map (·.mem.get 1) = .ok 4 := by rfl
/-- R251: blanks around a token, a sign, and an empty token. -/
theorem test_parse :
    parse " 1, -2\n,+3".toList = .ok [1, -2, 3] ∧ parse "1,,2".toList = .error .malformedProgram ∧
    parse "9223372036854775808".toList = .error .malformedProgram := ⟨by decide, by decide, by decide⟩

/-- Tokens of R251: a sign alone, two signs and an inner blank are none; leading zeros are digits; 2^63 fits only after a minus sign. -/
theorem test_token :
    tokenWord "-".toList = none ∧ tokenWord "+-1".toList = none ∧ tokenWord "1 2".toList = none ∧ tokenWord "\t-007\r".toList = some (-7) ∧
    tokenWord "-9223372036854775808".toList = some (-9223372036854775808) ∧ tokenWord "9223372036854775808".toList = none :=
  ⟨by decide, by decide, by decide, by decide, by decide, by decide⟩

/-- The platform after a request, and `p` where it gives no result. -/
def asked (p : Platform) (j : Nat) (q : Request) : Platform := ((p.request hw 4 j q).map (·.2)).getD p

/-- R206 and R252: a copy SNAPSHOT returned right after LOAD starts the program again after it has faulted, in the same slot. -/
theorem test_restore :
    let p := asked (asked ⟨[none], []⟩ 0 (.load "0".toList)) 0 (.command .snapshot)
    let q := asked p 0 (.command .step)
    (q.at 0).map (·.core.fault.isSome) = some true ∧ (asked q 0 (.restore 0)).at 0 = some ⟨State.load [0], 0, 0⟩ ∧
    (q.request hw 4 0 (.restore 1)).map (·.1) = some .noSnapshot := ⟨by decide, by decide, by decide⟩

/-- R226, by hand: Faulted(Overflow) is kind 3 and code 5, so 3 + 5*16; Value is kind 4 with its value beside it. -/
theorem test_status :
    (Response.result (.faulted .overflow)).status = 83 ∧ (Response.value 7).status = 4 ∧ (Response.value 7).word = 7 ∧
    (Response.result .running).kind ≠ 4 := by decide

/-! ### Witnesses: concrete states and operands that meet the hypotheses of the statement named, clause by clause -/

theorem reads {c : Config} {s : State} {p : Param} {x : Word} (h : readOperand c 1 p s = .ok x) : ReadsAs c s p x :=
  readOperand_eq_ok_iff.1 h

theorem fails {c : Config} {s : State} {k : Nat} {p : Param} {r : Raise} (h : readOperand c k p s = .error r) :
    ResolveFails c s k p r := readOperand_eq_error_iff.1 h

theorem target {c : Config} {s : State} {p : Param} {n : Nat} (h : writeTarget c 1 p s = .ok n) : TargetIs c s p n :=
  writeTarget_eq_ok_iff.1 h

/-- The largest word, 2^63 - 1. -/
abbrev big : Word := 9223372036854775807

/-- `FirstBadModeFaults`: digit 3 at parameter 1, at its lower bound; digit 1 at the write parameter 3, after legal digits. -/
theorem witness_FirstBadModeFaults :
    (0 ≤ (304 : Word).toInt ∧ (4, 1, none) ∈ opcodeRows ∧ (304 : Word).toNat % 100 = 4 ∧ 3 ≤ digit (304 : Word).toNat 2) ∧
    0 ≤ (11101 : Word).toInt ∧ (1, 3, some 3) ∈ opcodeRows ∧ (11101 : Word).toNat % 100 = 1 ∧
    (∀ j, j < 3 → 1 ≤ j → digit (11101 : Word).toNat (j + 1) ≤ 2) ∧ digit (11101 : Word).toNat 4 = 1 := by decide

/-- `IgnoredDigitsDoNotMatter`: OUT with digits of absent parameters (DE19). -/
theorem witness_IgnoredDigitsDoNotMatter :
    0 ≤ (30004 : Word).toInt ∧ 0 ≤ (4 : Word).toInt ∧ (4, 1, none) ∈ opcodeRows ∧
    (30004 : Word).toNat % 10 ^ 3 = (4 : Word).toNat % 10 ^ 3 ∧ (30004 : Word).toNat % 100 = 4 := by decide

theorem witness_DecodeOfEncode : WellFormed (.eq ⟨.immediate, big⟩ ⟨.relative, -1⟩ ⟨.relative, 0⟩) = true := by decide

theorem witness_DecodedIsWellFormed : decode [204, -1, 99] = .ok (.out ⟨.relative, -1⟩, [99]) := rfl

/-- At the top of memory too: HALT in the last cell. -/
theorem witness_StepRunsDecodedInstruction :
    (let s := loaded [104, 7, 99]
     s.halted = false ∧ s.fault = none ∧ s.pc + (Instr.out ⟨.immediate, 7⟩).length ≤ hw.memLimit ∧
       decode [wordAt s 0, wordAt s 1, wordAt s 2, wordAt s 3] = .ok (.out ⟨.immediate, 7⟩, [99, 0])) ∧
    (let s : State := { State.reset with pc := 2 ^ 63 - 1, mem := [(2 ^ 63 - 1, 99)] }
     s.halted = false ∧ s.fault = none ∧ s.pc + Instr.halt.length ≤ hw.memLimit ∧
       decode [wordAt s 0, wordAt s 1, wordAt s 2, wordAt s 3] = .ok (.halt, [0, 0, 0])) := by
  refine ⟨⟨rfl, rfl, by decide, rfl⟩, rfl, rfl, by decide, rfl⟩

/-- `FetchFaultsInOrder`: `pc` at `MEM_LIMIT`; a word that does not decode in the last cell; ADD there, whose first parameter word is
the first beyond the memory. -/
theorem witness_FetchFaultsInOrder :
    (let s : State := { State.reset with pc := 2 ^ 63 }
     s.halted = false ∧ s.fault = none ∧ hw.memLimit ≤ s.pc) ∧
    (let s : State := { State.reset with pc := 2 ^ 63 - 1 }
     s.halted = false ∧ s.fault = none ∧ s.pc < hw.memLimit ∧
       decodeHeader (wordAt s 0) = .error ⟨.unknownOpcode, none, some 0⟩) ∧
    (let s : State := { State.reset with pc := 2 ^ 63 - 1, mem := [(2 ^ 63 - 1, 1)] }
     s.halted = false ∧ s.fault = none ∧ s.pc < hw.memLimit ∧
       decodeHeader (wordAt s 0) = .ok (.add .position .position .position) ∧
       1 ≤ (Header.add .position .position .position).nparams ∧ s.pc + 1 = hw.memLimit) := by
  refine ⟨⟨rfl, rfl, by decide⟩, ⟨rfl, rfl, by decide, rfl⟩, rfl, rfl, by decide, rfl, by decide, by decide⟩

/-- `OnlyCommittedStepsWrite` and `ProgramCounterAfterStep`: every step result of an instance that can step. -/
theorem witness_step_results :
    ((loaded [3, 0]).halted = false ∧ (loaded [3, 0]).fault = none) ∧
    result (loaded [104, 7, 99]) = .running ∧ result (loaded [99]) = .halted ∧ result (loaded [3, 0]) = .awaitingInput ∧
    result (loaded [0]) = .faulted .unknownOpcode := by decide

/-- `ProgramCounterAfterStep` and `ExtentAfterCommit`: a taken jump, one not taken, and HALT, each of which commits; an IN that
suspends and a jump that faults. -/
theorem witness_ProgramCounterAfterStep :
    (fetchInstr hw (loaded [1105, 1, 7]) = .ok (.jt ⟨.immediate, 1⟩ ⟨.immediate, 7⟩) ∧
      JumpsTo hw (loaded [1105, 1, 7]) (.jt ⟨.immediate, 1⟩ ⟨.immediate, 7⟩) 7 ∧ result (loaded [1105, 1, 7]) = .running) ∧
    (fetchInstr hw (loaded [104, 7]) = .ok (.out ⟨.immediate, 7⟩) ∧ (¬ ∃ y, JumpsTo hw (loaded [104, 7]) (.out ⟨.immediate, 7⟩) y) ∧
      result (loaded [104, 7]) = .running) ∧
    (fetchInstr hw (loaded [99]) = .ok .halt ∧ result (loaded [99]) = .halted) ∧
    (fetchInstr hw (loaded [3, 0]) = .ok (.inp ⟨.position, 0⟩) ∧ result (loaded [3, 0]) = .awaitingInput) ∧
    fetchInstr hw (loaded [1105, 1, -7]) = .ok (.jt ⟨.immediate, 1⟩ ⟨.immediate, -7⟩) ∧
      result (loaded [1105, 1, -7]) = .faulted .invalidAddress := by
  refine ⟨⟨rfl, ⟨_, _, 1, .inl ⟨rfl, by decide⟩, reads rfl, reads rfl⟩, by decide⟩, ⟨rfl, ?_, by decide⟩, ⟨rfl, by decide⟩,
    ⟨rfl, by decide⟩, rfl, by decide⟩
  rintro ⟨y, a, b, x, ⟨h, -⟩ | ⟨h, -⟩, -⟩ <;> cases h

theorem witness_HaltingIsIdempotent :
    (after (loaded [99])).halted = true ∧ (after (loaded [99])).fault = none ∧
    feed hw 1 (after (loaded [99])) = .ok { after (loaded [99]) with inFifo := [1] } := ⟨by decide, by decide, rfl⟩

/-- A faulted state, a command on it, and a program to LOAD. -/
theorem witness_FaultIsFatal :
    (after (loaded [0])).fault = some ⟨.unknownOpcode, 0, some 0, none, some 0⟩ ∧
    (Session.command hw 1 .step ⟨after (loaded [0]), 0, 0⟩).isSome = true ∧
    loadText hw "99".toList = .ok (State.load [99]) := ⟨by decide, rfl, rfl⟩

/-- `MemReadRule`, `MemWriteReadsBack`: the addresses on both sides of both bounds. -/
theorem witness_MemReadRule :
    (-1 : Int) < 0 ∧ (hw.memLimit : Int) ≤ 2 ^ 63 ∧ (0 : Int) ≤ 2 ^ 63 - 1 ∧ (2 ^ 63 - 1 : Int) < hw.memLimit ∧ (0 : Int) < hw.memLimit := by
  decide

theorem witness_MemWriteReadsBack : (loaded [1, 0, 3]).mem = [(0, 1), (2, 3)] ∧ (loaded [1, 0, 3]).mem.wf = true := by decide

/-- `StoreIsFetchedNext`: ADD stores 99 at cell 4, fetched next, and 0 there, which does not decode. -/
theorem witness_StoreIsFetchedNext :
    (let s := loaded [1101, 99, 0, 4]
     s.mem.wf = true ∧ fetchInstr hw s = .ok (.add ⟨.immediate, 99⟩ ⟨.immediate, 0⟩ ⟨.position, 4⟩) ∧
       (Instr.add ⟨.immediate, 99⟩ ⟨.immediate, 0⟩ ⟨.position, 4⟩).target = some ⟨.position, 4⟩ ∧ TargetIs hw s ⟨.position, 4⟩ 4 ∧
       stepUnder hw s = (.running, after s) ∧ (after s).pc = 4 ∧ decodeHeader 99 = .ok .halt ∧ 4 + Header.halt.nparams < hw.memLimit) ∧
    (let s := loaded [1101, 0, 0, 4]
     s.mem.wf = true ∧ fetchInstr hw s = .ok (.add ⟨.immediate, 0⟩ ⟨.immediate, 0⟩ ⟨.position, 4⟩) ∧
       (Instr.add ⟨.immediate, 0⟩ ⟨.immediate, 0⟩ ⟨.position, 4⟩).target = some ⟨.position, 4⟩ ∧ TargetIs hw s ⟨.position, 4⟩ 4 ∧
       stepUnder hw s = (.running, after s) ∧ (after s).pc = 4 ∧ decodeHeader 0 = .error ⟨.unknownOpcode, none, some 0⟩) :=
  ⟨⟨by decide, rfl, rfl, target rfl, rfl, by decide, rfl, by decide⟩, by decide, rfl, rfl, target rfl, rfl, by decide, rfl⟩

/-- `AddRule`, `MulRule`, `LessThanRule`, `EqualsRule`: operands that resolve, in each mode, the target at the top of memory. -/
theorem witness_ternary_resolves :
    let s := loaded [22101, 2, 3, -1] 2
    ReadsAs hw s ⟨.immediate, 2⟩ 2 ∧ ReadsAs hw s ⟨.position, 2⟩ 3 ∧ ReadsAs hw s ⟨.relative, 1⟩ (-1) ∧
    TargetIs hw s ⟨.relative, -1⟩ 1 ∧ TargetIs hw s ⟨.position, big⟩ (2 ^ 63 - 1) :=
  ⟨reads rfl, reads rfl, reads rfl, target rfl, target rfl⟩

/-- The same four: each parameter's resolution fault, of both codes. -/
theorem witness_ternary_fails :
    let s := loaded [0] 1
    TernaryFails hw s ⟨.position, -1⟩ ⟨.immediate, 0⟩ ⟨.position, 0⟩ ⟨.invalidAddress, some 1, some (-1)⟩ ∧
    TernaryFails hw s ⟨.immediate, 0⟩ ⟨.relative, big⟩ ⟨.position, 0⟩ ⟨.capacityExceeded, some 2, some (2 ^ 63)⟩ ∧
    TernaryFails hw s ⟨.immediate, 0⟩ ⟨.immediate, 0⟩ ⟨.position, -2⟩ ⟨.invalidAddress, some 3, some (-2)⟩ :=
  ⟨.inl (.inl (fails rfl)), .inl (.inr ⟨0, reads rfl, fails rfl⟩), .inr ⟨0, 0, reads rfl, reads rfl, fails rfl⟩⟩

/-- Words of ADD's row, the second with an Immediate write operand; a sum at the bound, one past it, and one past it under wrapping. -/
theorem witness_AddRule :
    IsWord 1 [0, 1, 2] 21001 ∧ IsWord 1 [1, 1, 1] 11101 ∧
    FitsAs hw (big.toInt + (0 : Word).toInt) big ∧ (¬ fits64 (big.toInt + (1 : Word).toInt) ∧ hw.ovf = .fault) ∧
    FitsAs small (big.toInt + (1 : Word).toInt) (-9223372036854775808) := by
  unfold IsWord FitsAs; decide

/-- The same for MUL's row; the product that just fits, and the one past it (MU3, MU4). -/
theorem witness_MulRule :
    IsWord 2 [0, 1, 0] 1002 ∧ IsWord 2 [1, 1, 1] 11102 ∧
    FitsAs hw ((-9223372036854775808 : Word).toInt * (1 : Word).toInt) (-9223372036854775808) ∧
    (¬ fits64 ((-9223372036854775808 : Word).toInt * (-1 : Word).toInt) ∧ hw.ovf = .fault) ∧
    FitsAs small ((4294967296 : Word).toInt * (4294967296 : Word).toInt) 0 := by
  unfold IsWord FitsAs; decide

theorem witness_LessThanRule : IsWord 7 [1, 1, 0] 1107 ∧ IsWord 7 [1, 1, 1] 11107 := by unfold IsWord; decide

theorem witness_EqualsRule : IsWord 8 [1, 1, 2] 21108 ∧ IsWord 8 [1, 1, 1] 11108 := by unfold IsWord; decide

/-- `InputConsumesHead`, `InputSuspendsOnEmpty`: a target, and a FIFO with a value and without. -/
theorem witness_InputConsumesHead :
    (let s := { loaded [203, -1] 1 with inFifo := [42, 7] }
     TargetIs hw s ⟨.relative, -1⟩ 0 ∧ s.inFifo = 42 :: [7]) ∧
    (let s := loaded [203, -1] 1
     TargetIs hw s ⟨.relative, -1⟩ 0 ∧ s.inFifo = [] ∧ (execUnder hw (.inp ⟨.relative, -1⟩) s).1 = .awaitingInput) :=
  ⟨⟨target rfl, rfl⟩, target rfl, rfl, by decide⟩

theorem witness_FaultyInputNeverWaits :
    IsWord 3 [1] 11103 ∧ ResolveFails hw (loaded [203, -1]) 1 ⟨.relative, -1⟩ ⟨.invalidAddress, some 1, some (-1)⟩ ∧
    ResolveFails hw (loaded [203, 1] big) 1 ⟨.relative, 1⟩ ⟨.capacityExceeded, some 1, some (2 ^ 63)⟩ :=
  ⟨by unfold IsWord; decide, fails rfl, fails rfl⟩

/-- An unbounded log, a log with its last place free, a full one, and an operand that does not resolve. -/
theorem witness_OutputRule :
    (ReadsAs hw (loaded [4, 0]) ⟨.position, 0⟩ 4 ∧ ∀ k ∈ hw.outCap, (loaded [4, 0]).outLog.length < k) ∧
    (ReadsAs small (loaded [4, 0]) ⟨.position, 0⟩ 4 ∧ ∀ k ∈ small.outCap, (loaded [4, 0]).outLog.length < k) ∧
    (let s := { loaded [4, 0] with outLog := [7] }
     ReadsAs small s ⟨.position, 0⟩ 4 ∧ small.outCap = some 1 ∧ 1 ≤ s.outLog.length) ∧
    ResolveFails small (loaded [4, 8]) 1 ⟨.position, 8⟩ ⟨.capacityExceeded, some 1, some 8⟩ :=
  ⟨⟨reads rfl, by simp [Config.hardware]⟩, ⟨reads rfl, by simp [small, loaded, State.load, State.reset]⟩,
    ⟨reads rfl, rfl, by decide⟩, fails rfl⟩

/-- `JumpIfTrueRule`, `JumpIfFalseRule`: conditions 0, 1 and -1, targets 0, -1, the largest and one that reads 0, and operands that do not resolve. -/
theorem witness_jump_rules :
    let s := loaded [0, 1, -1, 9223372036854775807]
    (IsWord 5 [1, 1] 1105 ∧ IsWord 6 [0, 2] 2006) ∧
    (ReadsAs hw s ⟨.position, 0⟩ 0 ∧ (0 : Word).toInt = 0) ∧ (ReadsAs hw s ⟨.position, 2⟩ (-1) ∧ (-1 : Word).toInt ≠ 0) ∧
    (ReadsAs hw s ⟨.immediate, 0⟩ 0 ∧ 0 ≤ (0 : Word).toInt) ∧ (ReadsAs hw s ⟨.position, 3⟩ big ∧ 0 ≤ big.toInt) ∧
    (ReadsAs hw s ⟨.position, 2⟩ (-1) ∧ (-1 : Word).toInt < 0) ∧
    (ReadsAs hw s ⟨.immediate, 9⟩ 9 ∧ s.halted = false ∧ s.fault = none ∧ (9 : Word).toInt < hw.memLimit ∧ s.mem.get 9 = 0) ∧
    ReadsFail hw s ⟨.position, -1⟩ ⟨.immediate, 0⟩ ⟨.invalidAddress, some 1, some (-1)⟩ ∧
    ReadsFail hw s ⟨.immediate, 0⟩ ⟨.position, -1⟩ ⟨.invalidAddress, some 2, some (-1)⟩ := by
  refine ⟨by unfold IsWord; decide, ⟨reads rfl, by decide⟩, ⟨reads rfl, by decide⟩, ⟨reads rfl, by decide⟩, ⟨reads rfl, by decide⟩,
    ⟨reads rfl, by decide⟩, ⟨reads rfl, rfl, rfl, by decide, rfl⟩, .inl (fails rfl), .inr ⟨0, reads rfl, fails rfl⟩⟩

/-- A base that just fits, one past it, one past it under wrapping, and an operand that does not resolve. -/
theorem witness_AdjustRelativeBaseRule :
    let s := loaded [109, 1] big
    IsWord 9 [2] 209 ∧ (ReadsAs hw s ⟨.immediate, 0⟩ 0 ∧ FitsAs hw (s.rb.toInt + (0 : Word).toInt) big) ∧
    (ReadsAs hw s ⟨.immediate, 1⟩ 1 ∧ ¬ fits64 (s.rb.toInt + (1 : Word).toInt) ∧ hw.ovf = .fault) ∧
    (ReadsAs small s ⟨.immediate, 1⟩ 1 ∧ FitsAs small (s.rb.toInt + (1 : Word).toInt) (-9223372036854775808)) ∧
    ResolveFails hw s 1 ⟨.relative, 1⟩ ⟨.capacityExceeded, some 1, some (2 ^ 63)⟩ := by
  refine ⟨by unfold IsWord; decide, ⟨reads rfl, by unfold FitsAs; decide⟩, ⟨reads rfl, by decide, rfl⟩,
    ⟨reads rfl, by unfold FitsAs; decide⟩, fails rfl⟩

theorem witness_HaltRule : IsWord 99 [] 10399 ∧ IsWord 99 [] 99 ∧ (loaded [99]).fault = none := by unfold IsWord; decide

/-- `FrameOfTernary`: a step that stores, and one whose target does not resolve. -/
theorem witness_FrameOfTernary :
    (exec (.add ⟨.immediate, 2⟩ ⟨.immediate, 3⟩ ⟨.position, 5⟩) (loaded [1101, 2, 3, 5, 99]) = .next (after (loaded [1101, 2, 3, 5, 99])) ∧
      writeTarget hw 3 ⟨.position, 5⟩ (loaded [1101, 2, 3, 5, 99]) = .ok 5) ∧
    exec (.lt ⟨.immediate, 2⟩ ⟨.immediate, 3⟩ ⟨.position, -1⟩) (loaded [1107, 2, 3, -1]) = .next (after (loaded [1107, 2, 3, -1])) ∧
      writeTarget hw 3 ⟨.position, -1⟩ (loaded [1107, 2, 3, -1]) = .error ⟨.invalidAddress, some 3, some (-1)⟩ :=
  ⟨⟨rfl, rfl⟩, rfl, rfl⟩

/-- `FrameOfInput`: an empty FIFO and a value waiting, each with a target; a target that does not resolve. -/
theorem witness_FrameOfInput :
    (exec (.inp ⟨.position, 0⟩) (loaded [3, 0]) = .next (after (loaded [3, 0])) ∧ (loaded [3, 0]).inFifo = [] ∧
      writeTarget hw 1 ⟨.position, 0⟩ (loaded [3, 0]) = .ok 0) ∧
    (let s := { loaded [3, 0] with inFifo := [42] }
     exec (.inp ⟨.position, 0⟩) s = .next (after s) ∧ writeTarget hw 1 ⟨.position, 0⟩ s = .ok 0) ∧
    exec (.inp ⟨.position, -1⟩) (loaded [3, -1]) = .next (after (loaded [3, -1])) ∧
      writeTarget hw 1 ⟨.position, -1⟩ (loaded [3, -1]) = .error ⟨.invalidAddress, some 1, some (-1)⟩ :=
  ⟨⟨rfl, rfl, rfl⟩, ⟨rfl, rfl⟩, rfl, rfl⟩

/-- `FrameOfNonStoring`: each of its instructions answers a next state. -/
theorem witness_FrameOfNonStoring :
    exec (.out ⟨.immediate, -5⟩) (loaded [104, -5]) = .next (after (loaded [104, -5])) ∧
    exec (.jt ⟨.immediate, 1⟩ ⟨.immediate, 7⟩) (loaded [1105, 1, 7]) = .next (after (loaded [1105, 1, 7])) ∧
    exec (.jf ⟨.immediate, 1⟩ ⟨.immediate, 7⟩) (loaded [1106, 1, 7]) = .next (after (loaded [1106, 1, 7])) ∧
    exec (.arb ⟨.immediate, 19⟩) (loaded [109, 19] 2000) = .next (after (loaded [109, 19] 2000)) ∧
    exec .halt (loaded [99]) = .next (after (loaded [99])) := ⟨rfl, rfl, rfl, rfl, rfl⟩

/-- `StepKeepsInvariant`, `HardwareStepKeepsInvariant`: a valid configuration, and a state beyond reset that meets the invariant and
steps. -/
theorem witness_StepKeepsInvariant :
    Config.valid hw ∧ Config.valid small ∧ Inv hw { loaded [3, 0, 99] (-1) with inFifo := [42] } ∧
    Inv small { loaded [3, 0, 99] (-1) with inFifo := [42] } ∧
    step { loaded [3, 0, 99] (-1) with inFifo := [42] } = .next (after { loaded [3, 0, 99] (-1) with inFifo := [42] }) := by
  have cells : ∀ a, (loaded [3, 0, 99] (-1)).mem.get a ≠ Memory.fill → a < 3 := by
    intro a h
    by_contra hn
    apply h
    show (if a = 0 then (3 : Word) else if a = 2 then 99 else Memory.fill) = _
    rw [if_neg (by omega), if_neg (by omega)]
  have wf : (loaded [3, 0, 99] (-1)).mem.wf = true := by decide
  refine ⟨⟨⟨by decide, by decide⟩, by simp [Config.hardware], by simp [Config.hardware], by simp [Config.hardware]⟩,
    ⟨⟨by decide, by decide⟩, by simp [small], by simp [small], by decide⟩, ⟨by decide, wf, ?_, ?_, ?_, by decide, ?_⟩,
    ⟨by decide, wf, ?_, ?_, ?_, by decide, ?_⟩, rfl⟩
  · intro a h; have := cells a h; exact ⟨this, by show a < 2 ^ 63; omega⟩
  · simp [Within, Config.hardware]
  · simp [Within, Config.hardware]
  · intro r h; cases h
  · intro a h; have := cells a h; exact ⟨this, by show a < 8; omega⟩
  · simp [Within, small]
  · simp [Within, loaded, State.load, State.reset]
  · intro r h; cases h

/-- A text that parses and fits, one that parses and is one word too long for eight cells, and one that does not parse. -/
theorem witness_LoadResets :
    Config.valid small ∧ parse "1,0,0,0,99,5,6,7".toList = .ok [1, 0, 0, 0, 99, 5, 6, 7] ∧
    parse "1,2,3,4,5,6,7,8,9".toList = .ok [1, 2, 3, 4, 5, 6, 7, 8, 9] ∧ parse "1,x".toList = .error .malformedProgram :=
  ⟨witness_StepKeepsInvariant.2.1, by decide, by decide, by decide⟩

/-- Steps that change the base, append to the log, consume an input, and write a cell. -/
theorem witness_what_steps_change :
    (after (loaded [109, 19] 2000)).rb ≠ (loaded [109, 19] 2000).rb ∧
    (after (loaded [104, -5])).outLog ≠ (loaded [104, -5]).outLog ∧
    (after { loaded [3, 0] with inFifo := [42] }).inFifo ≠ [42] ∧
    (after (loaded [1101, 2, 3, 5])).mem.get 5 ≠ (loaded [1101, 2, 3, 5]).mem.get 5 := by decide

/-- Records of R202's table by hand: parameter 2 resolved at address -3; a taken jump to -3; digit 4 of parameter 3; OUT into a full log. -/
theorem test_fault_records :
    (after (loaded [1, 0, -3, 0])).fault = some ⟨.invalidAddress, 0, some 1, some 2, some (-3)⟩ ∧
    (after (loaded [1106, 0, -3])).fault = some ⟨.invalidAddress, 0, some 1106, some 2, some (-3)⟩ ∧
    (after (loaded [40101])).fault = some ⟨.illegalMode, 0, some 40101, some 3, some 4⟩ ∧
    (stepUnder small { loaded [4, 0] with outLog := [7] }).2.fault = some ⟨.capacityExceeded, 0, some 4, none, none⟩ := by decide

/-- `FaultRecordsFollowTheTable`: a step that takes each of the six codes, from a state that has not faulted. -/
theorem witness_FaultRecordsFollowTheTable :
    (loaded [0]).fault = none ∧ ((after (loaded [0])).fault.map (·.code) = some .unknownOpcode) ∧
    ((after (loaded [4, -1])).fault.map (·.code) = some .invalidAddress) ∧
    ((after (loaded [103])).fault.map (·.code) = some .illegalWriteTarget) ∧
    ((after (loaded [304])).fault.map (·.code) = some .illegalMode) ∧
    ((after (loaded [109, 1] big)).fault.map (·.code) = some .overflow) ∧
    ((after (loaded [204, 1] big)).fault.map (·.code) = some .capacityExceeded) := by decide

/-- A step that suspends, and a value fed after it. -/
theorem witness_SuspensionResumes :
    (stepUnder hw (loaded [3, 0, 99])).1 = .awaitingInput ∧
    feed hw 7 (after (loaded [3, 0, 99])) = .ok { after (loaded [3, 0, 99]) with inFifo := [7] } := ⟨by decide, rfl⟩

theorem witness_FeedCommutesWithStep :
    stepUnder hw { loaded [3, 0, 99] with inFifo := [42] } = (.running, after { loaded [3, 0, 99] with inFifo := [42] }) ∧
    stepUnder hw (loaded [99]) = (.halted, after (loaded [99])) := ⟨rfl, rfl⟩

/-- The largest address a Relative parameter may name; a base and an offset of opposite signs. -/
theorem witness_RelativeAgreesWithPosition :
    (∀ p ∈ (Instr.out ⟨.relative, 0⟩).params, Rebasable (loaded [204, 0] big) p) ∧
    ∀ p ∈ (Instr.add ⟨.relative, 5⟩ ⟨.immediate, big⟩ ⟨.relative, 6⟩).params, Rebasable (loaded [20201] (-5)) p := by
  unfold Rebasable; decide

/-- `RunStepsUntilStopped`, `FuelOnlyBoundsRun`, `RunToOutputAppendsOne`: runs that return, one that does not within its fuel (an
endless loop), and both kinds of stop of RUN_TO_OUTPUT. -/
theorem witness_runs :
    (stepUnder hw (loaded [99]) = (.halted, after (loaded [99])) ∧ StepResult.halted ≠ .running) ∧
    (stepUnder hw (loaded [104, 7, 99]) = (.running, after (loaded [104, 7, 99])) ∧
      (after (loaded [104, 7, 99])).outLog = (loaded [104, 7, 99]).outLog ++ [7]) ∧
    (stepUnder hw (loaded [109, 7]) = (.running, after (loaded [109, 7])) ∧ (after (loaded [109, 7])).outLog = (loaded [109, 7]).outLog) ∧
    (run hw 2 (loaded [104, 7, 99]) = some (.halted, after (after (loaded [104, 7, 99]))) ∧ run hw 3 (loaded [1105, 1, 0]) = none) ∧
    runToOutput hw 1 (loaded [104, 7, 99]) = some (.value 7, after (loaded [104, 7, 99])) ∧
    runToOutput hw 1 (loaded [99]) = some (.result .halted, after (loaded [99])) :=
  ⟨⟨rfl, by decide⟩, ⟨rfl, rfl⟩, ⟨rfl, rfl⟩, ⟨rfl, rfl⟩, rfl, rfl⟩

/-- `ExecutionCommandsRunTheCore`, `StatusWordPacks`: runs that return and runs out of fuel, a value, and responses of the commands. -/
theorem witness_ExecutionCommandsRunTheCore :
    (run hw 2 (loaded [104, 7, 99])).isSome = true ∧ run hw 1 (loaded [104, 7, 99]) = none ∧
    (runToOutput hw 1 (loaded [104, 7, 99])).map (·.1) = some (.value 7) ∧ runToOutput hw 1 (loaded [109, 7]) = none ∧
    (Session.command hw 1 .runToOutput ⟨loaded [104, 7, 99], 0, 0⟩).map (·.1) = some (.response (.value 7)) ∧
    (Session.command hw 1 .step ⟨loaded [104, 7, 99], 0, 0⟩).map (·.1) = some (.response (.result .running)) :=
  ⟨rfl, rfl, rfl, rfl, rfl, rfl⟩

/-- A halted and a faulted instance, and commands that return. -/
theorem witness_StoppedInstanceIsFrozen :
    Stopped (after (loaded [99])) ∧ Stopped (after (loaded [0])) ∧
    (Session.command hw 1 .run ⟨after (loaded [99]), 0, 0⟩).isSome = true ∧
    (Session.command hw 1 (.writeAddr 0 7 0) ⟨after (loaded [0]), 0, 0⟩).map (·.1) = some (.error .frozen) :=
  ⟨.inl (by decide), .inr (by decide), rfl, rfl⟩

/-- The first and the last index of a log, and the indices outside on both sides. -/
theorem witness_OutputCommandsObserve :
    let s : State := { State.reset with outLog := [7, 8] }
    ((0 : Int) ≤ 0 ∧ (0 : Int) < s.outLog.length) ∧ ((0 : Int) ≤ 1 ∧ (1 : Int) < s.outLog.length) ∧
    (-1 : Int) < 0 ∧ (s.outLog.length : Int) ≤ 2 := by decide

/-- A FIFO with its last place free, and a full one. -/
theorem witness_FeedAndLastInput :
    (∀ k ∈ small.inCap, (loaded [3, 0]).inFifo.length < k) ∧ small.inCap = some 1 ∧ 1 ≤ ({ loaded [3, 0] with inFifo := [42] } : State).inFifo.length :=
  ⟨by simp [small, loaded, State.load, State.reset], rfl, by decide⟩

/-- A character just above the bound; a text at it that fits, and one that does not fit a FIFO of one place. -/
theorem witness_FeedAsciiFeedsAllOrNothing :
    127 < (Char.ofNat 128).toNat ∧ (∀ x ∈ [Char.ofNat 127, 'A'], x.toNat ≤ 127) ∧
    (small.inCap = some 1 ∧ 1 < (loaded [99]).inFifo.length + [Char.ofNat 127, 'A'].length + 1) ∧
    (∀ k ∈ hw.inCap, (loaded [99]).inFifo.length + [Char.ofNat 127, 'A'].length + 1 ≤ k) ∧
    ∀ k ∈ small.inCap, (loaded [99]).inFifo.length + ([] : List Char).length + 1 ≤ k :=
  ⟨by simp, by simp, ⟨rfl, by decide⟩, by simp [Config.hardware], by simp [small, loaded, State.load, State.reset]⟩

/-- A line that is waiting, and one the program still has to output (104,10 outputs the newline). -/
theorem witness_AsciiLineIsNextInLog :
    requireAsciiLine hw 1 1 ⟨{ loaded [99] with outLog := [72, 105, 10, 7] }, 3, 0⟩ =
      some (.line ['H', 'i'], ⟨{ loaded [99] with outLog := [72, 105, 10, 7] }, 3, 3⟩) ∧
    (requireAsciiLine hw 1 2 ⟨loaded [104, 10, 99], 0, 0⟩).map (fun r => (r.1, r.2.lineCursor)) = some (.line [], 1) := ⟨rfl, rfl⟩

/-- Host addresses on both sides of both bounds, an Immediate one, a mode outside on both sides, and an instance that is stopped and one
that is not. -/
theorem witness_HostMemoryAccess :
    ((-1 : Int) < 0 ∧ (3 : Int) ≤ 3) ∧ Param.mode ⟨.immediate, 5⟩ = .immediate ∧
    (Names (loaded [99]) ⟨.position, -1⟩ (-1) ∧ (-1 : Int) < 0) ∧
    (Names (loaded [99] big) ⟨.relative, 1⟩ (2 ^ 63) ∧ (hw.memLimit : Int) ≤ 2 ^ 63) ∧
    (Names (loaded [99] big) ⟨.relative, 0⟩ ((2 ^ 63 - 1 : Nat) : Int) ∧ 2 ^ 63 - 1 < hw.memLimit) ∧
    Stopped (after (loaded [99])) ∧ ¬ Stopped (loaded [99]) := by
  refine ⟨by decide, rfl, ⟨by unfold Names; decide, by decide⟩, ⟨by unfold Names; decide, by decide⟩,
    ⟨by unfold Names; decide, by decide⟩, .inl (by decide), by unfold Stopped; decide⟩

theorem witness_ParseIsTokenwise :
    parse "1,,2".toList = .error .malformedProgram ∧ parse "1,2".toList = .ok [1, 2] ∧ tokenWord " -7".toList = some (-7) :=
  ⟨by decide, by decide, by decide⟩

/-- Two slots, each holding an instance, and a request on the first; a restore there, the host holding one copy. -/
theorem witness_InstancesAreIsolated :
    let p : Platform := ⟨[some (Session.fresh (loaded [99])), some (Session.fresh (loaded [104, 7]))], [loaded [3, 0]]⟩
    let p₂ : Platform := ⟨[some (Session.fresh (loaded [99])), none], [loaded [3, 0]]⟩
    ((p.request hw 1 0 (.command .step)).isSome = true ∧ (p.request hw 1 0 (.restore 0)).isSome = true) ∧
    p₂.slots.length = p.slots.length ∧ p₂.slots[0]? = p.slots[0]? ∧ p₂.held = p.held ∧
    (∀ into, Request.command .step ≠ .clone into) ∧ ∀ into, Request.restore 0 ≠ .clone into := by
  refine ⟨⟨rfl, rfl⟩, rfl, rfl, rfl, fun into h => (by cases h), fun into h => (by cases h)⟩

/-- A spare slot, and a copy the host holds, of a program whose instance has faulted since. -/
theorem witness_SnapshotIsIndependent :
    let p : Platform := ⟨[some (Session.fresh (after (loaded [0]))), none], [loaded [0]]⟩
    p.at 0 = some (Session.fresh (after (loaded [0]))) ∧ 1 < p.slots.length ∧ (1 : Nat) ≠ 0 ∧
    (p.request hw 1 0 (.command .step)).isSome = true ∧ 0 < p.slots.length ∧ p.held[0]? = some (loaded [0]) :=
  ⟨rfl, by decide, by decide, rfl, by decide, rfl⟩

end Sys2Proof.Tests
end

section
/-! SUPPORT. What the decoder can raise: the first mode digit that is not legal, or the opcode; and what it never answers, an Immediate
write operand (spec/30_encoding.md R73 to R80). -/

namespace Sys2Proof

/-- A sequence answers exactly where its two parts do. -/
theorem except_bind_eq_ok_iff {ε α β : Type} {x : Except ε α} {f : α → Except ε β} {b : β} :
    (x >>= f) = .ok b ↔ ∃ a, x = .ok a ∧ f a = .ok b := by
  cases x <;> simp [bind, Except.bind]

/-- A sequence raises what its first part raises, or else its second. -/
theorem except_bind_eq_error_iff {ε α β : Type} {x : Except ε α} {f : α → Except ε β} {e : ε} :
    (x >>= f) = .error e ↔ x = .error e ∨ ∃ a, x = .ok a ∧ f a = .error e := by
  cases x <;> simp [bind, Except.bind]

/-- The mode digit of parameter `k` is not legal and raises `r`; `write` is the index of the write parameter, if there is one (R78). -/
def ModeRaises (v : Nat) (write : Option Nat) (k : Nat) (r : Raise) : Prop :=
  (3 ≤ digit v (k + 1) ∧ r = ⟨.illegalMode, some k, some (digit v (k + 1) : Nat)⟩) ∨
  (write = some k ∧ digit v (k + 1) = 1 ∧ r = ⟨.illegalWriteTarget, some k, none⟩)

/-- The first of `n` mode digits that is not legal raises `r` (R78). -/
def FirstBadMode (v n : Nat) (write : Option Nat) (r : Raise) : Prop :=
  ∃ k, 1 ≤ k ∧ k ≤ n ∧ (∀ j, 1 ≤ j → j < k → digit v (j + 1) ≤ 2) ∧ ModeRaises v write k r

/-- A mode that is read has a legal digit. -/
theorem digit_le_of_readMode {k v : Nat} {m : Mode} (h : readMode k v = .ok m) : digit v (k + 1) ≤ 2 := by
  rw [readMode_eq_ok_iff.1 h]
  cases m <;> decide

/-- What a read parameter's digit raises. -/
theorem modeRaises_of_readMode {k v : Nat} {write : Option Nat} {r : Raise} (h : readMode k v = .error r) :
    ModeRaises v write k r := .inl (readMode_eq_error_iff.1 h)

/-- What a write parameter's digit raises. -/
theorem modeRaises_of_writeMode {k v : Nat} {r : Raise} (h : writeMode k v = .error r) : ModeRaises v (some k) k r :=
  (writeMode_eq_error_iff.1 h).imp_right fun h => ⟨rfl, h⟩

theorem firstBadMode_of_modesW {mk : Mode → Header} {v : Nat} {r : Raise} (h : modesW mk v = .error r) :
    FirstBadMode v 1 (some 1) r := by
  obtain h | ⟨d, -, ⟨⟩⟩ := except_bind_eq_error_iff.1 h
  exact ⟨1, le_rfl, le_rfl, by omega, modeRaises_of_writeMode h⟩

theorem firstBadMode_of_modesR {mk : Mode → Header} {v : Nat} {r : Raise} (h : modesR mk v = .error r) :
    FirstBadMode v 1 none r := by
  obtain h | ⟨a, -, ⟨⟩⟩ := except_bind_eq_error_iff.1 h
  exact ⟨1, le_rfl, le_rfl, by omega, modeRaises_of_readMode h⟩

theorem firstBadMode_of_modesRR {mk : Mode → Mode → Header} {v : Nat} {r : Raise} (h : modesRR mk v = .error r) :
    FirstBadMode v 2 none r := by
  obtain h | ⟨a, ha, h⟩ := except_bind_eq_error_iff.1 h
  · exact ⟨1, le_rfl, by omega, by omega, modeRaises_of_readMode h⟩
  have ha := digit_le_of_readMode ha
  obtain h | ⟨b, -, ⟨⟩⟩ := except_bind_eq_error_iff.1 h
  refine ⟨2, by omega, le_rfl, fun j h1 h2 => ?_, modeRaises_of_readMode h⟩
  obtain rfl : j = 1 := by omega
  exact ha

theorem firstBadMode_of_modesRRW {mk : Mode → Mode → Mode → Header} {v : Nat} {r : Raise} (h : modesRRW mk v = .error r) :
    FirstBadMode v 3 (some 3) r := by
  obtain h | ⟨a, ha, h⟩ := except_bind_eq_error_iff.1 h
  · exact ⟨1, le_rfl, by omega, by omega, modeRaises_of_readMode h⟩
  have ha := digit_le_of_readMode ha
  obtain h | ⟨b, hb, h⟩ := except_bind_eq_error_iff.1 h
  · refine ⟨2, by omega, by omega, fun j h1 h2 => ?_, modeRaises_of_readMode h⟩
    obtain rfl : j = 1 := by omega
    exact ha
  have hb := digit_le_of_readMode hb
  obtain h | ⟨d, -, ⟨⟩⟩ := except_bind_eq_error_iff.1 h
  refine ⟨3, by omega, le_rfl, fun j h1 h2 => ?_, modeRaises_of_writeMode h⟩
  obtain rfl | rfl : j = 1 ∨ j = 2 := by omega
  · exact ha
  · exact hb

/-- What the opcode map raises: the first bad mode of a row of the table, or UnknownOpcode where the opcode has no row (R78, R79). -/
theorem decodeValue_error_cases {v : Nat} {r : Raise} (h : decodeValue v = .error r) :
    (∃ row ∈ Machine.opcodeRows, v % 100 = row.1 ∧ FirstBadMode v row.2.1 row.2.2 r) ∨
    ((v % 100 = 0 ∨ (10 ≤ v % 100 ∧ v % 100 ≤ 98)) ∧ r = ⟨.unknownOpcode, none, some (v % 100 : Nat)⟩) := by
  unfold decodeValue at h
  split at h
  next e => exact .inl ⟨(1, 3, some 3), by decide, e, firstBadMode_of_modesRRW h⟩
  next e => exact .inl ⟨(2, 3, some 3), by decide, e, firstBadMode_of_modesRRW h⟩
  next e => exact .inl ⟨(3, 1, some 1), by decide, e, firstBadMode_of_modesW h⟩
  next e => exact .inl ⟨(4, 1, none), by decide, e, firstBadMode_of_modesR h⟩
  next e => exact .inl ⟨(5, 2, none), by decide, e, firstBadMode_of_modesRR h⟩
  next e => exact .inl ⟨(6, 2, none), by decide, e, firstBadMode_of_modesRR h⟩
  next e => exact .inl ⟨(7, 3, some 3), by decide, e, firstBadMode_of_modesRRW h⟩
  next e => exact .inl ⟨(8, 3, some 3), by decide, e, firstBadMode_of_modesRRW h⟩
  next e => exact .inl ⟨(9, 1, none), by decide, e, firstBadMode_of_modesR h⟩
  next => cases h
  next =>
    simp only [imp_false] at *
    cases h
    exact .inr ⟨by omega, rfl⟩

/-- A write parameter's header holds a mode a write operand may have. -/
theorem modesW_eq_ok {mk : Mode → Header} {v : Nat} {h : Header} (e : modesW mk v = .ok h) : ∃ d, d.writable = true ∧ h = mk d := by
  obtain ⟨d, hd, ⟨⟩⟩ := except_bind_eq_ok_iff.1 e
  exact ⟨d, Mode.writable_iff.2 (writeMode_eq_ok_iff.1 hd).2, rfl⟩

theorem modesR_eq_ok {mk : Mode → Header} {v : Nat} {h : Header} (e : modesR mk v = .ok h) : ∃ a, h = mk a := by
  obtain ⟨a, -, ⟨⟩⟩ := except_bind_eq_ok_iff.1 e
  exact ⟨a, rfl⟩

theorem modesRR_eq_ok {mk : Mode → Mode → Header} {v : Nat} {h : Header} (e : modesRR mk v = .ok h) : ∃ a b, h = mk a b := by
  obtain ⟨a, -, e⟩ := except_bind_eq_ok_iff.1 e
  obtain ⟨b, -, ⟨⟩⟩ := except_bind_eq_ok_iff.1 e
  exact ⟨a, b, rfl⟩

theorem modesRRW_eq_ok {mk : Mode → Mode → Mode → Header} {v : Nat} {h : Header} (e : modesRRW mk v = .ok h) :
    ∃ a b d, d.writable = true ∧ h = mk a b d := by
  obtain ⟨a, -, e⟩ := except_bind_eq_ok_iff.1 e
  obtain ⟨b, -, e⟩ := except_bind_eq_ok_iff.1 e
  obtain ⟨d, hd, ⟨⟩⟩ := except_bind_eq_ok_iff.1 e
  exact ⟨a, b, d, Mode.writable_iff.2 (writeMode_eq_ok_iff.1 hd).2, rfl⟩

/-- What the opcode map answers makes well-formed instructions only, whatever the parameter words (R76). -/
theorem decodeValue_wellFormed {v : Nat} {h : Header} (e : decodeValue v = .ok h) (p : Nat → Word) :
    WellFormed (h.withParams p) = true := by
  unfold decodeValue at e
  split at e
  next => obtain ⟨a, b, d, hd, rfl⟩ := modesRRW_eq_ok e; exact hd
  next => obtain ⟨a, b, d, hd, rfl⟩ := modesRRW_eq_ok e; exact hd
  next => obtain ⟨d, hd, rfl⟩ := modesW_eq_ok e; exact hd
  next => obtain ⟨a, rfl⟩ := modesR_eq_ok e; rfl
  next => obtain ⟨a, b, rfl⟩ := modesRR_eq_ok e; rfl
  next => obtain ⟨a, b, rfl⟩ := modesRR_eq_ok e; rfl
  next => obtain ⟨a, b, d, hd, rfl⟩ := modesRRW_eq_ok e; exact hd
  next => obtain ⟨a, b, d, hd, rfl⟩ := modesRRW_eq_ok e; exact hd
  next => obtain ⟨a, rfl⟩ := modesR_eq_ok e; rfl
  next => cases e; rfl
  next => cases e

/-- What decodes is a well-formed instruction. -/
theorem decodeHeader_wellFormed {w : Word} {h : Header} (e : decodeHeader w = .ok h) (p : Nat → Word) :
    WellFormed (h.withParams p) = true := by
  unfold decodeHeader at e
  split at e
  · cases e
  · exact decodeValue_wellFormed e p

/-- A well-formed instruction's write operand is not Immediate. -/
theorem mode_ne_immediate_of_wellFormed {i : Instr} {d : Param} (hi : WellFormed i = true) (hd : i.target = some d) :
    d.mode ≠ .immediate := by
  rw [← Mode.writable_iff]
  cases i <;> cases hd <;> exact hi

/-- A header's instruction has `NPARAMS` parameters. -/
theorem Header.length_params_withParams (h : Header) (p : Nat → Word) : (h.withParams p).params.length = h.nparams := by
  cases h <;> rfl

end Sys2Proof
end

section
/-! SUPPORT. Every fault a step takes is one R202's table gives it: what the fetch, the decoder and each instruction's actions raise, as
`RaisedAs` tells it. -/

namespace Sys2Proof.Machine

variable {c : Config} {s : State} {i : Instr} {r : Raise}

/-- The raise is one R202's table gives a step of `s`. -/
def Raises (c : Config) (s : State) (r : Raise) : Prop := RaisedAs c s r.code r.param r.addr

/-- A non-negative word's value is its unsigned one. -/
theorem toInt_eq_toNat_of_nonneg {w : Word} (h : 0 ≤ w.toInt) : w.toInt = w.toNat := by
  have := w.isLt
  rw [BitVec.toInt_eq_toNat_cond] at h ⊢
  split at h <;> omega

/-- The first bad mode of a fetched word's row raises as the table says. -/
theorem raises_of_firstBadMode {w : Word} {row : Nat × Nat × Option Nat} (hw : Fetches c s w) (hrow : row ∈ opcodeRows)
    (hpos : 0 ≤ w.toInt) (hop : w.toNat % 100 = row.1) (h : FirstBadMode w.toNat row.2.1 row.2.2 r) : Raises c s r := by
  obtain ⟨k, h1, hk, hbefore, ⟨hdig, rfl⟩ | ⟨hwrite, hdig, rfl⟩⟩ := h
  · exact ⟨w, row, k, hw, ⟨hrow, hpos, hop, h1, hk, hbefore⟩, hdig, rfl, rfl⟩
  · exact ⟨w, row, k, hw, ⟨hrow, hpos, hop, h1, hk, hbefore⟩, hwrite, hdig, rfl, rfl⟩

/-- What the decoder raises on the fetched word. -/
theorem raises_of_decodeHeader {w : Word} (hw : Fetches c s w) (h : decodeHeader w = .error r) : Raises c s r := by
  unfold decodeHeader at h
  split at h
  next hneg => cases h; exact ⟨w, hw, rfl, .inl ⟨hneg, rfl⟩⟩
  next hpos =>
    have hpos := not_lt.1 hpos
    obtain ⟨row, hrow, hop, h⟩ | ⟨hop, rfl⟩ := decodeValue_error_cases h
    · exact raises_of_firstBadMode hw hrow hpos hop h
    · refine ⟨w, hw, rfl, .inr ⟨hpos, ?_⟩⟩
      rw [toInt_eq_toNat_of_nonneg hpos]
      exact ⟨by omega, rfl⟩

/-- What fetching an instruction raises. -/
theorem raises_of_fetchInstr (h : fetchInstr c s = .error r) : Raises c s r := by
  unfold fetchInstr at h
  split at h
  next hpc => cases h; exact .inl ⟨hpc, rfl, rfl⟩
  next hpc =>
    have hw : Fetches c s (wordAt s 0) := ⟨not_le.1 hpc, rfl⟩
    split at h
    next e hd => cases h; exact raises_of_decodeHeader hw hd
    next hdr hd =>
      split at h
      next k hk =>
        cases h
        obtain ⟨h1, hn, hlim, hbefore⟩ := beyondParam_eq_some hk
        have hend : s.pc + k = c.memLimit := by
          obtain rfl | hk1 := Nat.eq_or_lt_of_le h1
          · omega
          · have := hbefore (k - 1) (by omega) (by omega)
            omega
        exact .inr (.inl ⟨_, hdr, k, hw, hd, h1, hn, hend, rfl, rfl⟩)
      next => cases h

/-- Resolving parameter `k + 1` of the fetched instruction, those before it having read, raises as the table says. -/
theorem raises_of_resolveFails {k : Nat} {p : Param} (hf : fetchInstr c s = .ok i) (hp : i.params[k]? = some p)
    (hbefore : ∀ j < k, ∀ q, i.params[j]? = some q → ∃ x, ReadsAs c s q x) (h : ResolveFails c s (k + 1) p r) : Raises c s r := by
  obtain ⟨a, ha, hr⟩ := h
  have hfirst : (a < 0 ∨ (c.memLimit : Int) ≤ a) → FirstBadAddress c s i (k + 1) a := fun hbad =>
    ⟨Nat.succ_pos k, ⟨p, hp, ha⟩, hbad, fun j q hj => hbefore j (Nat.lt_of_succ_lt_succ hj) q⟩
  obtain ⟨hneg, rfl⟩ | ⟨hlim, rfl⟩ := hr
  · exact ⟨i, k + 1, a, hf, rfl, rfl, hneg, .inl (hfirst (.inl hneg))⟩
  · exact .inr (.inr (.inl ⟨i, k + 1, a, hf, hfirst (.inr hlim), hlim, rfl, rfl⟩))

/-- The first operand of the fetched instruction that does not resolve. -/
theorem raises_of_resolveFails_first {a : Param} {ps : List Param} (hf : fetchInstr c s = .ok i) (hps : i.params = a :: ps)
    (h : ResolveFails c s 1 a r) : Raises c s r :=
  raises_of_resolveFails (k := 0) hf (by rw [hps]; rfl) (fun _ hj => absurd hj (Nat.not_lt_zero _)) h

/-- The first of two read operands of the fetched instruction that does not resolve. -/
theorem raises_of_readsFail {a b : Param} {ps : List Param} (hf : fetchInstr c s = .ok i) (hps : i.params = a :: b :: ps)
    (h : ReadsFail c s a b r) : Raises c s r := by
  obtain h | ⟨x, ha, h⟩ := h
  · exact raises_of_resolveFails_first hf hps h
  · refine raises_of_resolveFails (k := 1) hf (by rw [hps]; rfl) (fun j hj q hq => ?_) h
    obtain rfl : j = 0 := by omega
    rw [hps] at hq
    cases hq
    exact ⟨x, ha⟩

/-- The first of two read operands and a write operand of the fetched instruction that does not resolve. -/
theorem raises_of_ternaryFails {a b d : Param} (hf : fetchInstr c s = .ok i) (hps : i.params = [a, b, d])
    (h : TernaryFails c s a b d r) : Raises c s r := by
  obtain h | ⟨x, y, ha, hb, h⟩ := h
  · exact raises_of_readsFail hf hps h
  · refine raises_of_resolveFails (k := 2) hf (by rw [hps]; rfl) (fun j hj q hq => ?_) h
    rw [hps] at hq
    obtain rfl | rfl : j = 0 ∨ j = 1 := by omega
    · cases hq; exact ⟨x, ha⟩
    · cases hq; exact ⟨y, hb⟩

/-- A fetched instruction's write operand is not Immediate: the decoder has refused it (R76). -/
theorem target_mode_ne_immediate {d : Param} (hf : fetchInstr c s = .ok i) (hd : i.target = some d) : d.mode ≠ .immediate := by
  obtain ⟨-, h, hdec, -, rfl⟩ := fetchInstr_eq_ok_iff.1 hf
  exact mode_ne_immediate_of_wellFormed (decodeHeader_wellFormed hdec _) hd

/-- What ADD, MUL, LT and EQ raise, given what their result does. -/
theorem raises_of_ternaryRaises {f : Int → Int → Except Raise Word} {a b d : Param} (hf : fetchInstr c s = .ok i)
    (hps : i.params = [a, b, d]) (hd : i.target = some d) (h : TernaryRaises c s f a b d r)
    (hres : ∀ x y n, ReadsAs c s a x → ReadsAs c s b y → TargetIs c s d n → f x.toInt y.toInt = .error r → Raises c s r) :
    Raises c s r := by
  obtain h | ⟨hm, -⟩ | ⟨x, y, n, ha, hb, hn, h⟩ := h
  · exact raises_of_ternaryFails hf hps h
  · exact absurd hm (target_mode_ne_immediate hf hd)
  · exact hres x y n ha hb hn h

/-- What a result outside `i64` raises. -/
theorem raises_of_fit {v : Int} (hf : fetchInstr c s = .ok i) (ho : ¬ fits64 v → Overflows c s i) (h : fit c v = .error r) :
    Raises c s r := by
  obtain ⟨hv, hovf, rfl⟩ := fit_eq_error_iff.1 h
  exact ⟨i, hf, ho hv, hovf, rfl, rfl⟩

/-- What IN raises. -/
theorem raises_of_inp {d : Param} (hf : fetchInstr c s = .ok (.inp d))
    (h : ResolveFails c s 1 d r ∨ (d.mode = .immediate ∧ r = ⟨.illegalWriteTarget, some 1, none⟩)) : Raises c s r := by
  obtain h | ⟨hm, -⟩ := h
  · exact raises_of_resolveFails_first hf rfl h
  · exact absurd hm (target_mode_ne_immediate hf rfl)

/-- A queue is full only at a finite capacity it has reached. -/
theorem full_eq_true_iff {cap : Option Nat} {n : Nat} : Config.full cap n = true ↔ ∃ k, cap = some k ∧ k ≤ n := by
  cases cap <;> simp [Config.full]

/-- A queue that is not full stays within its capacity with one entry more. -/
theorem full_eq_false_iff {cap : Option Nat} {n : Nat} : Config.full cap n = false ↔ Within cap (n + 1) := by
  cases cap <;> simp [Config.full, Within]

/-- What OUT raises. -/
theorem raises_of_out {a : Param} (hf : fetchInstr c s = .ok (.out a))
    (h : ResolveFails c s 1 a r ∨
      ∃ x, ReadsAs c s a x ∧ Config.full c.outCap s.outLog.length = true ∧ r = ⟨.capacityExceeded, none, none⟩) : Raises c s r := by
  obtain h | ⟨x, ha, hfull, rfl⟩ := h
  · exact raises_of_resolveFails_first hf rfl h
  · obtain ⟨n, hcap, hn⟩ := full_eq_true_iff.1 hfull
    exact .inr (.inr (.inr ⟨a, x, n, hf, ha, hcap, hn, rfl, rfl⟩))

/-- What JT and JF raise, given what a taken jump is. -/
theorem raises_of_jumpRaises {taken : Int → Bool} {a b : Param} (hf : fetchInstr c s = .ok i) (hps : i.params = [a, b])
    (ht : ∀ x y, ReadsAs c s a x → ReadsAs c s b y → taken x.toInt = true → JumpsTo c s i y) (h : JumpRaises c s taken a b r) :
    Raises c s r := by
  obtain h | ⟨x, y, ha, hb, hx, hy, rfl⟩ := h
  · exact raises_of_readsFail hf hps h
  · exact ⟨i, 2, y.toInt, hf, rfl, rfl, hy, .inr ⟨rfl, y, ht x y ha hb hx, rfl⟩⟩

/-- What ARB raises. -/
theorem raises_of_arb {a : Param} (hf : fetchInstr c s = .ok (.arb a)) (h : ArbRaises c s a r) : Raises c s r := by
  obtain h | ⟨x, ha, hv, hovf, rfl⟩ := h
  · exact raises_of_resolveFails_first hf rfl h
  · exact ⟨_, hf, .inr ⟨a, x, rfl, ha, hv⟩, hovf, rfl, rfl⟩

/-- What a raise's record says does not depend on the extent or on the fault register. -/
theorem raisedAs_congr {code : FaultCode} {param : Option Nat} {addr : Option Int} (n : Nat) (f : Option FaultRecord) :
    RaisedAs c { s with memLen := n, fault := f } code param addr ↔ RaisedAs c s code param addr := by
  cases code <;> exact Iff.rfl

/-- Taking a fault the table gives leaves the table's record (R202, R203). -/
theorem recordOk_takeFault (h : Raises c s r) : RecordOk c (takeFault c s r).2 (faultRecord c s r) :=
  ⟨rfl, rfl, (raisedAs_congr _ _).2 h⟩

end Sys2Proof.Machine
end

section
/-! SUPPORT. What a step does, once: one relation that says what each instruction commits, and one that says what a step answers. The
safety statements are case analyses over these two. -/

namespace Sys2Proof.Machine

variable {c : Config} {s : State} {i : Instr}

/-- What an instruction commits in `s`: its step result, the `pc` after it, and the state with what the opcode has written, to which
`commit` adds the extent and that `pc`. -/
inductive Commits (c : Config) (s : State) : Instr → StepResult → Nat → State → Prop
  /-- ADD, MUL, LT and EQ store a value at their write operand. -/
  | store {i : Instr} {d : Param} {n : Nat} {v : Word} : i.target = some d → TargetIs c s d n →
      Commits c s i .running (s.pc + i.length) (s.storeWord n v)
  /-- IN stores the FIFO's head at its write operand and notes it. -/
  | input {d : Param} {n : Nat} {v : Word} {rest : List Word} : TargetIs c s d n → s.inFifo = v :: rest →
      Commits c s (.inp d) .running (s.pc + 2) (((s.storeWord n v).setFifo rest).noteInput v)
  /-- OUT appends its operand to a log with room for it. -/
  | output {a : Param} {x : Word} : ReadsAs c s a x → Within c.outCap (s.outLog.length + 1) →
      Commits c s (.out a) .running (s.pc + 2) (s.appendOut x)
  /-- A taken JT or JF writes `pc` alone. -/
  | jump {i : Instr} {y : Word} : JumpsTo c s i y → 0 ≤ y.toInt → Commits c s i .running y.toInt.toNat s
  /-- A JT or JF that is not taken writes nothing. -/
  | fallThrough {i : Instr} {a b : Param} : i = .jt a b ∨ i = .jf a b → Commits c s i .running (s.pc + i.length) s
  /-- ARB moves the relative base. -/
  | rebase {a : Param} {x v : Word} : ReadsAs c s a x → FitsAs c (s.rb.toInt + x.toInt) v →
      Commits c s (.arb a) .running (s.pc + 2) (s.setRb v)
  /-- HALT sets the halted flag. -/
  | halt : Commits c s .halt .halted (s.pc + 1) s.setHalted

/-- What executing the fetched instruction `i` does: it commits, suspends an IN on an empty FIFO, or takes a fault of R202's table. -/
inductive Executes (c : Config) (s : State) (i : Instr) : StepResult × State → Prop
  | commits {r : StepResult} {pc' : Nat} {w : State} : Commits c s i r pc' w → Executes c s i (r, commit s i.params pc' w)
  | suspends {d : Param} : i = .inp d → s.inFifo = [] → Executes c s i (suspend s)
  | faults {r : Raise} : Raises c s r → Executes c s i (takeFault c s r)

/-- ADD, MUL, LT and EQ store their result, or fault. -/
theorem executes_ternary {f : Int → Int → Except Raise Word} {a b d : Param} (hf : fetchInstr c s = .ok i)
    (hps : i.params = [a, b, d]) (hd : i.target = some d)
    (hres : ∀ {x y n r}, ReadsAs c s a x → ReadsAs c s b y → TargetIs c s d n → f x.toInt y.toInt = .error r → Raises c s r) :
    Executes c s i (ternary c f a b d s) := by
  obtain ⟨x, y, n, v, -, -, hn, -, e⟩ | ⟨r, hr, e⟩ := ternary_cases c s f a b d
  · have hlen : s.pc + i.length = s.pc + 4 := by rw [Instr.length, hps]; rfl
    rw [e, ← hps, ← hlen]
    exact .commits (.store hd hn)
  · rw [e]
    exact .faults (raises_of_ternaryRaises hf hps hd hr fun _ _ _ => hres)

/-- JT and JF jump, fall through or fault. -/
theorem executes_jumpWhen {taken : Int → Bool} {a b : Param} (hf : fetchInstr c s = .ok i) (hi : i = .jt a b ∨ i = .jf a b)
    (ht : ∀ {x y}, ReadsAs c s a x → ReadsAs c s b y → taken x.toInt = true → JumpsTo c s i y) :
    Executes c s i (jumpWhen c taken a b s) := by
  have hps : i.params = [a, b] := by obtain rfl | rfl := hi <;> rfl
  obtain ⟨x, y, ha, hb, hx, hy, e⟩ | ⟨x, y, -, -, -, e⟩ | ⟨r, hr, e⟩ := jumpWhen_cases c s taken a b
  · rw [e, ← hps]
    exact .commits (.jump (ht ha hb hx) hy)
  · have hlen : s.pc + i.length = s.pc + 3 := by rw [Instr.length, hps]; rfl
    rw [e, ← hps, ← hlen]
    exact .commits (.fallThrough hi)
  · rw [e]
    exact .faults (raises_of_jumpRaises hf hps (fun _ _ => ht) hr)

/-- What executing the fetched instruction does. -/
theorem execUnder_executes (hf : fetchInstr c s = .ok i) : Executes c s i (execUnder c i s) := by
  cases i with
  | add a b d =>
    rw [execUnder_add]
    exact executes_ternary hf rfl rfl fun ha hb hn =>
      raises_of_fit hf fun hv => .inl ⟨a, b, d, _, _, _, ha, hb, hn, .inl ⟨rfl, hv⟩⟩
  | mul a b d =>
    rw [execUnder_mul]
    exact executes_ternary hf rfl rfl fun ha hb hn =>
      raises_of_fit hf fun hv => .inl ⟨a, b, d, _, _, _, ha, hb, hn, .inr ⟨rfl, hv⟩⟩
  | lt a b d =>
    rw [execUnder_lt]
    exact executes_ternary hf rfl rfl fun _ _ _ => nofun
  | eq a b d =>
    rw [execUnder_eq]
    exact executes_ternary hf rfl rfl fun _ _ _ => nofun
  | jt a b =>
    rw [execUnder_jt]
    exact executes_jumpWhen hf (.inl rfl) fun ha hb hx => ⟨a, b, _, .inl ⟨rfl, of_decide_eq_true hx⟩, ha, hb⟩
  | jf a b =>
    rw [execUnder_jf]
    exact executes_jumpWhen hf (.inr rfl) fun ha hb hx => ⟨a, b, _, .inr ⟨rfl, of_decide_eq_true hx⟩, ha, hb⟩
  | inp d =>
    rw [execUnder_inp]
    obtain ⟨n, v, rest, hn, hq, e⟩ | ⟨n, -, hq, e⟩ | ⟨r, hr, e⟩ := inpUnder_cases c s d
    · rw [e]; exact .commits (.input hn hq)
    · rw [e]; exact .suspends rfl hq
    · rw [e]; exact .faults (raises_of_inp hf hr)
  | out a =>
    rw [execUnder_out]
    obtain ⟨x, ha, hroom, e⟩ | ⟨r, hr, e⟩ := outUnder_cases c s a
    · rw [e]; exact .commits (.output ha (full_eq_false_iff.1 hroom))
    · rw [e]; exact .faults (raises_of_out hf hr)
  | arb a =>
    rw [execUnder_arb]
    obtain ⟨x, v, ha, hv, e⟩ | ⟨r, hr, e⟩ := arbUnder_cases c s a
    · rw [e]; exact .commits (.rebase ha hv)
    · rw [e]; exact .faults (raises_of_arb hf hr)
  | halt => exact .commits .halt

/-- What a step does: nothing to a stopped core; otherwise it takes a fault of R202's table, suspends, or commits what the
fetched instruction commits. -/
inductive Steps (c : Config) (s : State) : StepResult × State → Prop
  | stays {r : StepResult} : stoppedResult s = some r → Steps c s (r, s)
  | faults {r : Raise} : stoppedResult s = none → Raises c s r → Steps c s (takeFault c s r)
  | suspends {d : Param} : stoppedResult s = none → fetchInstr c s = .ok (.inp d) → s.inFifo = [] → Steps c s (suspend s)
  | commits {i : Instr} {r : StepResult} {pc' : Nat} {w : State} : stoppedResult s = none → fetchInstr c s = .ok i →
      Commits c s i r pc' w → Steps c s (r, commit s i.params pc' w)

/-- What a step does, once. -/
theorem stepUnder_steps (c : Config) (s : State) : Steps c s (stepUnder c s) := by
  obtain ⟨r, hs, e⟩ | ⟨hs, r, hf, e⟩ | ⟨hs, i, hf, e⟩ := stepUnder_cases c s
  · rw [e]; exact .stays hs
  · rw [e]; exact .faults hs (raises_of_fetchInstr hf)
  · rw [e]
    have h := execUnder_executes hf
    generalize execUnder c i s = o at h
    cases h with
    | commits hc => exact .commits hs hf hc
    | suspends hi hq => exact .suspends hs (hi ▸ hf) hq
    | faults hr => exact .faults hs hr

end Sys2Proof.Machine
end

section
/-! SUPPORT. Every step keeps the invariant (spec/10_state.md R34), and what only one instruction may change. -/

namespace Sys2Proof.Machine

variable {c : Config} {s : State} {i : Instr}

/-- A fetched instruction's words all exist (R108). -/
theorem pc_add_length_le (hf : fetchInstr c s = .ok i) : s.pc + i.length ≤ c.memLimit := by
  obtain ⟨hpc, h, -, hb, rfl⟩ := fetchInstr_eq_ok_iff.1 hf
  rw [Instr.length, Header.length_params_withParams]
  obtain h0 | hlast := beyondParam_eq_none_iff.1 hb <;> omega

/-- A committed step leaves `pc` within its register (R22). -/
theorem Commits.pc_le {r : StepResult} {pc' : Nat} {w : State} (hl : c.memLimit ≤ 2 ^ 63) (hf : fetchInstr c s = .ok i)
    (h : Commits c s i r pc' w) : pc' ≤ 2 ^ 63 := by
  have hpc := (pc_add_length_le hf).trans hl
  cases h with
  | store | fallThrough => exact hpc
  | input | output | rebase | halt => exact hpc
  | @jump _ y =>
    have := (fits64_toInt y).2
    omega

/-- A committed step leaves the fault register alone. -/
theorem Commits.fault_eq {r : StepResult} {pc' : Nat} {w : State} (h : Commits c s i r pc' w) : w.fault = s.fault := by
  cases h <;> rfl

/-- Memory holds nothing at or beyond the extent `e` or the address space (R29, R30). -/
def CellsWithin (c : Config) (m : Memory) (e : Nat) : Prop := ∀ a, m.get a ≠ Memory.fill → a < e ∧ a < c.memLimit

/-- A longer extent holds what a shorter one held. -/
theorem CellsWithin.mono {m : Memory} {e e' : Nat} (he : e ≤ e') (h : CellsWithin c m e) : CellsWithin c m e' :=
  fun a ha => ⟨(h a ha).1.trans_le he, (h a ha).2⟩

/-- A write below both bounds keeps memory within them. -/
theorem CellsWithin.set {m : Memory} {e n : Nat} (h : CellsWithin c m e) (hn : n < e) (hl : n < c.memLimit) (v : Word) :
    CellsWithin c (m.set n v) e := by
  intro a ha
  by_cases han : a = n
  · exact han ▸ ⟨hn, hl⟩
  · exact h a (Memory.get_set_ne m v han ▸ ha)

/-- A store at the write operand of a committed step stays within the step's extent. -/
theorem cellsWithin_set_of_targetIs {d : Param} {n : Nat} (v : Word) (hd : d ∈ i.params) (hn : TargetIs c s d n)
    (h : CellsWithin c s.mem s.memLen) : CellsWithin c (s.mem.set n v) (extentAfter s i.params) := by
  obtain ⟨-, -, hnamed⟩ := extentAfter_le_iff.1 (le_refl (extentAfter s i.params))
  exact (h.mono (memLen_le_extentAfter _)).set (hnamed d hd n hn.1) hn.2 v

/-- The write operand is one of the parameters. -/
theorem target_mem_params {d : Param} (h : i.target = some d) : d ∈ i.params := by
  cases i <;> cases h <;> simp [Instr.params]

/-- A committed step keeps memory canonical, and within the extent it leaves and the address space. -/
theorem Commits.mem {r : StepResult} {pc' : Nat} {w : State} (h : Commits c s i r pc' w) (hw : s.mem.wf = true)
    (hc : CellsWithin c s.mem s.memLen) : w.mem.wf = true ∧ CellsWithin c w.mem (extentAfter s i.params) := by
  have kept : s.mem.wf = true ∧ CellsWithin c s.mem (extentAfter s i.params) := ⟨hw, hc.mono (memLen_le_extentAfter _)⟩
  cases h with
  | store hd hn => exact ⟨Memory.wf_set hw _ _, cellsWithin_set_of_targetIs _ (target_mem_params hd) hn hc⟩
  | input hn => exact ⟨Memory.wf_set hw _ _, cellsWithin_set_of_targetIs (i := .inp _) _ (target_mem_params rfl) hn hc⟩
  | output | jump | fallThrough | rebase | halt => exact kept

/-- A committed step keeps both queues within their capacities. -/
theorem Commits.queues {r : StepResult} {pc' : Nat} {w : State} (h : Commits c s i r pc' w)
    (hi : Within c.inCap s.inFifo.length) (ho : Within c.outCap s.outLog.length) :
    Within c.inCap w.inFifo.length ∧ Within c.outCap w.outLog.length := by
  cases h with
  | input _ hq =>
    rw [hq] at hi
    exact ⟨fun k hk => (Nat.le_succ _).trans (hi k hk), ho⟩
  | output _ hroom => exact ⟨hi, by simpa using hroom⟩
  | store | jump | fallThrough | rebase | halt => exact ⟨hi, ho⟩

/-- What is left of the invariant for a state that has not faulted. -/
theorem inv_of_unfaulted (hfault : s.fault = none) (hpc : s.pc ≤ 2 ^ 63) (hw : s.mem.wf = true) (hc : CellsWithin c s.mem s.memLen)
    (hi : Within c.inCap s.inFifo.length) (ho : Within c.outCap s.outLog.length) : Inv c s :=
  ⟨hpc, hw, hc, hi, ho, by simp [hfault], by simp [hfault]⟩

/-- A committed step of an unfaulted state keeps the invariant. -/
theorem Commits.inv {r : StepResult} {pc' : Nat} {w : State} (hl : c.memLimit ≤ 2 ^ 63) (hfault : s.fault = none)
    (hf : fetchInstr c s = .ok i) (h : Commits c s i r pc' w) (hinv : Inv c s) : Inv c (commit s i.params pc' w) := by
  obtain ⟨-, hw, hc, hi, ho, -, -⟩ := hinv
  obtain ⟨hw', hc'⟩ := h.mem hw hc
  obtain ⟨hi', ho'⟩ := h.queues hi ho
  exact inv_of_unfaulted (h.fault_eq.trans hfault) (h.pc_le hl hf) hw' hc' hi' ho'

/-- Taking a fault of R202's table keeps the invariant. -/
theorem inv_takeFault {r : Raise} (hh : s.halted = false) (hr : Raises c s r) (hinv : Inv c s) : Inv c (takeFault c s r).2 := by
  obtain ⟨hpc, hw, hc, hi, ho, -, -⟩ := hinv
  refine ⟨hpc, hw, CellsWithin.mono (Nat.le_add_right _ _) hc, hi, ho, by simp [takeFault, hh], fun q hq => ?_⟩
  obtain rfl := Option.mem_some.1 hq
  exact recordOk_takeFault hr

/-- Suspending keeps the invariant of a state that can step. -/
theorem inv_suspend (hfault : s.fault = none) (hinv : Inv c s) : Inv c (suspend s).2 := by
  obtain ⟨hpc, hw, hc, hi, ho, -, -⟩ := hinv
  exact inv_of_unfaulted hfault hpc hw (CellsWithin.mono (Nat.le_add_right _ _) hc) hi ho

/-- A step keeps the invariant, under any valid parameters. -/
theorem Steps.inv {o : StepResult × State} (hl : c.memLimit ≤ 2 ^ 63) (h : Steps c s o) (hinv : Inv c s) : Inv c o.2 := by
  cases h with
  | stays => exact hinv
  | faults hs hr => exact inv_takeFault (stoppedResult_eq_none_iff.1 hs).1 hr hinv
  | suspends hs => exact inv_suspend (stoppedResult_eq_none_iff.1 hs).2 hinv
  | commits hs hf hc => exact hc.inv hl (stoppedResult_eq_none_iff.1 hs).2 hf hinv

/-- Settles O35: what a step does, case by case, each of which keeps the invariant. -/
theorem stepKeepsInvariant : Obligations.StepKeepsInvariant := by
  rintro c ⟨⟨-, hl⟩, -⟩ s hinv
  exact (stepUnder_steps c s).inv hl hinv

/-- Settles O36: the hardware's step is the controller's at the hardware's parameters, whose `MEM_LIMIT` is the bound on `pc`. -/
theorem hardwareStepKeepsInvariant : Obligations.HardwareStepKeepsInvariant := by
  intro s t hinv hstep
  rw [step_eq_answer] at hstep
  cases hstep
  have hinv' := (stepUnder_steps Config.hardware s).inv le_rfl hinv
  exact ⟨hinv', hinv'.1⟩

/-- Settles O19: the step committed, so its extent is `extentAfter`'s. -/
theorem extentAfterCommit : Obligations.ExtentAfterCommit := by
  intro c s i hh hfault hf hres k
  have h := stepUnder_steps c s
  generalize stepUnder c s = o at h hres
  cases h with
  | stays hs => simp [stoppedResult_eq_none_iff.2 ⟨hh, hfault⟩] at hs
  | faults => simp [takeFault] at hres
  | suspends => simp [suspend] at hres
  | commits _ hf' _ =>
    obtain rfl := Except.ok.inj (hf.symm.trans hf')
    rw [commit_memLen, extentAfter_le_iff]
    have hlen : s.pc + i.length = s.pc + i.params.length + 1 := by rw [Instr.length]; omega
    rw [hlen]
    refine and_congr_right fun _ => and_congr_right fun hk => ?_
    have hpos : 0 < k := by omega
    exact forall₄_congr fun p _ a _ => by omega

/-- Settles O39: of what a step commits only ARB's effect writes the base. -/
theorem onlyArbMovesTheBase : Obligations.OnlyArbMovesTheBase := by
  intro c s hne
  have h := stepUnder_steps c s
  generalize stepUnder c s = o at h hne ⊢
  cases h with
  | stays | faults | suspends => exact absurd rfl hne
  | commits _ hf hc =>
    cases hc with
    | rebase ha hv => exact ⟨_, _, hf, ha, hv⟩
    | store | input | output | jump | fallThrough | halt => exact absurd rfl hne

/-- Settles O40: of what a step commits only OUT's effect writes the log. -/
theorem onlyOutputAppends : Obligations.OnlyOutputAppends := by
  intro c s
  have h := stepUnder_steps c s
  generalize stepUnder c s = o at h ⊢
  cases h with
  | stays | faults | suspends => exact .inl rfl
  | commits _ hf hc =>
    cases hc with
    | output ha => exact .inr ⟨_, _, hf, ha, rfl⟩
    | store | input | jump | fallThrough | rebase | halt => exact .inl rfl

/-- Settles O41: of what a step commits only IN's effect writes the FIFO and the last input. -/
theorem onlyInputConsumes : Obligations.OnlyInputConsumes := by
  intro c s
  have h := stepUnder_steps c s
  generalize stepUnder c s = o at h ⊢
  cases h with
  | stays | faults | suspends => exact .inl ⟨rfl, rfl⟩
  | commits _ hf hc =>
    cases hc with
    | input _ hq => exact .inr ⟨_, _, hf, hq, rfl, rfl⟩
    | store | output | jump | fallThrough | rebase | halt => exact .inl ⟨rfl, rfl⟩

/-- A write that changes what an address reads as is at that address. -/
theorem Memory.eq_of_get_set_ne {m : Memory} {a b : Nat} {v : Word} (h : (m.set a v).get b ≠ m.get b) : b = a :=
  not_not.1 fun hb => h (Memory.get_set_ne m v hb)

/-- Settles O42: a committed step writes memory only by a store at the write operand's cell. -/
theorem onlyTargetsAreWritten : Obligations.OnlyTargetsAreWritten := by
  intro c s m hne
  have h := stepUnder_steps c s
  generalize stepUnder c s = o at h hne ⊢
  cases h with
  | stays | faults | suspends => exact absurd rfl hne
  | commits _ hf hc =>
    cases hc with
    | store hd hn =>
      obtain rfl := Memory.eq_of_get_set_ne hne
      exact ⟨_, _, hf, hd, hn, rfl⟩
    | input hn =>
      obtain rfl := Memory.eq_of_get_set_ne hne
      exact ⟨_, _, hf, rfl, hn, rfl⟩
    | output | jump | fallThrough | rebase | halt => exact absurd rfl hne

end Sys2Proof.Machine
end

section
/-! SUPPORT. What a command may do to a halted or faulted core (spec/10_state.md R34 (d); spec/60_exceptions.md R239). -/

namespace Sys2Proof.Machine

variable {c : Config} {s t : State} {x y : Session} {reply : Reply}

/-- The step result of a stopped core is not Running. -/
theorem stoppedResult_ne_running : stoppedResult s ≠ some .running := by
  unfold stoppedResult
  cases s.fault with
  | some r => simp
  | none => cases s.halted <;> simp

/-- A step of a stopped core changes nothing and is not Running (R100). -/
theorem stepUnder_of_stopped (c : Config) (h : Stopped s) : ∃ r, r ≠ .running ∧ stepUnder c s = (r, s) := by
  obtain ⟨r, hr⟩ := Option.isSome_iff_exists.1 (stoppedResult_isSome_iff.2 h)
  exact ⟨r, fun e => stoppedResult_ne_running (e ▸ hr), by simp [stepUnder, hr]⟩

/-- RUN of a stopped core changes nothing. -/
theorem run_of_stopped {fuel : Nat} {r : StepResult} (h : Stopped s) (e : run c fuel s = some (r, t)) : t = s := by
  obtain ⟨r', hr', hstep⟩ := stepUnder_of_stopped c h
  cases fuel with
  | zero => cases e
  | succ fuel =>
    unfold run at e
    rw [hstep] at e
    cases r' with
    | running => exact absurd rfl hr'
    | awaitingInput | halted | faulted => cases e; rfl

/-- RUN_TO_OUTPUT of a stopped core changes nothing. -/
theorem runToOutput_of_stopped {fuel : Nat} {r : Response} (h : Stopped s) (e : runToOutput c fuel s = some (r, t)) : t = s := by
  obtain ⟨r', hr', hstep⟩ := stepUnder_of_stopped c h
  cases fuel with
  | zero => cases e
  | succ fuel =>
    unfold runToOutput at e
    rw [hstep] at e
    cases r' with
    | running => exact absurd rfl hr'
    | awaitingInput | halted | faulted => cases e; rfl

/-- REQUIRE_INPUT_BATCH of a stopped core leaves the core as it is. -/
theorem requireInputBatch_of_stopped {fuel : Nat} (h : Stopped x.core) (e : requireInputBatch c fuel x = some (reply, y)) :
    y.core = x.core := by
  unfold requireInputBatch at e
  split at e
  next => cases e
  next hrun => cases e; exact run_of_stopped h hrun

/-- REQUIRE_ASCII_LINE of a stopped core leaves the core as it is. -/
theorem requireAsciiLine_of_stopped {fuel rounds : Nat} (h : Stopped x.core)
    (e : requireAsciiLine c fuel rounds x = some (reply, y)) : y.core = x.core := by
  induction rounds generalizing x with
  | zero => cases e
  | succ rounds ih =>
    unfold requireAsciiLine at e
    split at e
    next seg _ => cases hl : asciiLine seg <;> simp only [hl] at e <;> cases e <;> rfl
    next =>
      split at e
      next => cases e
      next hrun =>
        obtain rfl := runToOutput_of_stopped h hrun
        exact ih h e
      next hrun => cases e; exact runToOutput_of_stopped h hrun

/-- READ_ADDR changes the extent at most. -/
theorem readAddr_extent {addr v : Word} {mode : Int} (e : readAddr c addr mode s = .ok (v, t)) : ∃ n, t = s.setExtent n := by
  unfold readAddr at e
  split at e
  next => cases e
  next =>
    split at e
    next => cases e; exact ⟨s.memLen, rfl⟩
    next a _ =>
      cases hread : memRead c none a s with
      | error r => rw [hread] at e; cases e
      | ok r =>
        obtain ⟨n, -, -, rfl⟩ := memRead_eq_ok_iff.1 hread
        rw [hread] at e
        cases e
        exact ⟨_, rfl⟩

/-- WRITE_ADDR is refused on a stopped core. -/
theorem writeAddr_of_stopped (addr v : Word) (mode : Int) (h : Stopped s) : writeAddr c addr v mode s = .error .frozen := by
  have hstop : (s.halted || s.fault.isSome) = true := by simpa [Stopped] using h
  simp [writeAddr, hstop]

/-- FEED changes the FIFO alone. -/
theorem feed_fifo {v : Word} (e : feed c v s = .ok t) : ∃ q, t = s.setFifo q := by
  unfold feed at e
  split at e
  · cases e
  · cases e; exact ⟨_, rfl⟩

/-- FEED_ASCII changes the FIFO alone. -/
theorem feedAscii_fifo {text : List Char} (e : feedAscii c text s = .ok t) : ∃ q, t = s.setFifo q := by
  unfold feedAscii at e
  obtain ⟨-, e⟩ | ⟨-, e⟩ := ite_eq_iff.1 e
  · cases e
  · obtain ⟨-, e⟩ | ⟨-, e⟩ := ite_eq_iff.1 e
    · cases e; exact ⟨_, rfl⟩
    · cases e

/-- A command whose effect on the core, where it has one, is on the FIFO alone. -/
theorem update_fifo {e : Except HostError State} (h : ∀ t, e = .ok t → ∃ q, t = x.core.setFifo q) :
    ∃ q, (x.update e).2.core = x.core.setFifo q := by
  cases e with
  | error r => exact ⟨x.core.inFifo, rfl⟩
  | ok t => exact h t rfl

/-- A command on a stopped core changes the extent at most, or it feeds and changes the FIFO at most. -/
theorem command_of_stopped {fuel : Nat} {cmd : Command} (h : Stopped x.core) (e : x.command c fuel cmd = some (reply, y)) :
    (∃ n, y.core = x.core.setExtent n) ∨
    (((∃ v, cmd = .feed v) ∨ ∃ text, cmd = .feedAscii text) ∧ ∃ q, y.core = x.core.setFifo q) := by
  have kept : y.core = x.core → ∃ n, y.core = x.core.setExtent n := fun hy => ⟨x.core.memLen, hy⟩
  cases cmd with
  | step =>
    obtain ⟨r, -, hstep⟩ := stepUnder_of_stopped c h
    cases e
    exact .inl (kept (congrArg Prod.snd hstep))
  | run =>
    obtain ⟨⟨r, t⟩, hrun, he⟩ := Option.map_eq_some_iff.1 e
    cases he
    exact .inl (kept (run_of_stopped h hrun))
  | runToOutput =>
    obtain ⟨⟨r, t⟩, hrun, he⟩ := Option.map_eq_some_iff.1 e
    cases he
    exact .inl (kept (runToOutput_of_stopped h hrun))
  | feed v =>
    obtain rfl := congrArg Prod.snd (Option.some.inj e)
    exact .inr ⟨.inl ⟨v, rfl⟩, update_fifo fun _ => feed_fifo⟩
  | feedAscii text =>
    obtain rfl := congrArg Prod.snd (Option.some.inj e)
    exact .inr ⟨.inr ⟨text, rfl⟩, update_fifo fun _ => feedAscii_fifo⟩
  | outputs | outLen | lastInputWas | snapshot => cases e; exact .inl (kept rfl)
  | outRead i =>
    simp only [Session.command] at e
    split at e <;> cases e <;> exact .inl (kept rfl)
  | readAddr addr mode =>
    simp only [Session.command] at e
    split at e
    next hread => cases e; exact .inl (readAddr_extent hread)
    next => cases e; exact .inl (kept rfl)
  | writeAddr addr v mode =>
    rw [Session.command, writeAddr_of_stopped addr v mode h] at e
    cases e
    exact .inl (kept rfl)
  | requireInputBatch echo => exact .inl (kept (requireInputBatch_of_stopped h e))
  | requireAsciiLine => exact .inl (kept (requireAsciiLine_of_stopped h e))

/-- Settles O50: a command on a stopped core changes the extent at most, or feeds and changes the FIFO at most. -/
theorem stoppedInstanceIsFrozen : Obligations.StoppedInstanceIsFrozen := by
  intro c fuel cmd x y reply h e
  obtain ⟨n, hy⟩ | ⟨hfeed, q, hy⟩ := command_of_stopped h e
  · rw [hy]
    exact ⟨rfl, fun _ _ => rfl⟩
  · rw [hy]
    refine ⟨rfl, fun hv ht => ?_⟩
    obtain ⟨v, hcmd⟩ | ⟨text, hcmd⟩ := hfeed
    · exact absurd hcmd (hv v)
    · exact absurd hcmd (ht text)

end Sys2Proof.Machine
end

section
/-! SUPPORT. What a request may do to a platform: it leaves it, or puts one session into one slot and perhaps hands the host a copy
(spec/10_state.md R35, R36; spec/60_exceptions.md R213, R233). -/

namespace Sys2Proof.Machine

variable {c : Config} {fuel j k : Nat} {p p' : Platform} {q : Request} {a : Answer}

/-- The slot something is put into holds it, if the platform has that slot. -/
theorem Platform.slots_put_self (p : Platform) (j : Nat) (x : Session) :
    (p.put j x).slots[j]? = p.slots[j]?.map fun _ => some x := List.getElem?_set_self'

/-- Every other slot is left. -/
theorem Platform.slots_put_ne (p : Platform) (x : Session) (h : k ≠ j) : (p.put j x).slots[k]? = p.slots[k]? :=
  List.getElem?_set_ne h.symm

/-- What is put into a slot the platform has is the session there. -/
theorem Platform.at_put_self (p : Platform) (x : Session) (h : j < p.slots.length) : (p.put j x).at j = some x := by
  simp [Platform.at, Platform.slots_put_self, h]

/-- The session in every other slot is left. -/
theorem Platform.at_put_ne (p : Platform) (x : Session) (h : k ≠ j) : (p.put j x).at k = p.at k := by
  rw [Platform.at, Platform.at, Platform.slots_put_ne p x h]

/-- What a request does, once: nothing, or it puts a session into its own slot, or the one a snapshot is put into, and adds to the
copies the host holds. -/
theorem Platform.request_cases (h : p.request c fuel j q = some (a, p')) :
    p' = p ∨ ∃ k x vs, (k = j ∨ q = .clone k) ∧ p' = { (p.put k x) with held := p.held ++ vs } := by
  have puts : ∀ {k x}, (k = j ∨ q = .clone k) →
      ∃ k' x' vs, (k' = j ∨ q = .clone k') ∧ p.put k x = { (p.put k' x') with held := p.held ++ vs } :=
    fun {k x} hk => ⟨k, x, [], hk, by simp [Platform.put]⟩
  cases q with
  | load text =>
    simp only [Platform.request] at h
    split at h
    · cases h; exact .inl rfl
    · split at h
      · cases h; exact .inl rfl
      · cases h; exact .inr (puts (.inl rfl))
  | command cmd =>
    simp only [Platform.request] at h
    split at h
    · cases h; exact .inl rfl
    · obtain ⟨r, -, he⟩ := Option.map_eq_some_iff.1 h
      cases he
      exact .inr ⟨j, r.2, r.1.copies, .inl rfl, rfl⟩
  | clone into =>
    simp only [Platform.request] at h
    split at h
    · cases h; exact .inl rfl
    · split at h
      · cases h; exact .inl rfl
      · cases h; exact .inr (puts (.inr rfl))
  | restore copy =>
    simp only [Platform.request] at h
    split at h
    · cases h; exact .inl rfl
    · split at h
      · cases h; exact .inl rfl
      · cases h; exact .inr (puts (.inl rfl))

/-- No request changes the number of slots. -/
theorem Platform.request_length (h : p.request c fuel j q = some (a, p')) : p'.slots.length = p.slots.length := by
  obtain rfl | ⟨k, x, vs, -, rfl⟩ := Platform.request_cases h
  · rfl
  · simp [Platform.put]

/-- A request leaves every slot but its own and the one a snapshot is put into. -/
theorem Platform.request_slots_ne (h : p.request c fuel j q = some (a, p')) (hj : k ≠ j) (hq : ∀ into, q = .clone into → k ≠ into) :
    p'.slots[k]? = p.slots[k]? := by
  obtain rfl | ⟨k', x, vs, hk', rfl⟩ := Platform.request_cases h
  · rfl
  · have hne : k ≠ k' := hk'.elim (fun e => e ▸ hj) (hq k')
    exact Platform.slots_put_ne p x hne

/-- A request keeps every copy the host holds, under its number. -/
theorem Platform.request_held {n : Nat} {s : State} (h : p.request c fuel j q = some (a, p')) (hn : p.held[n]? = some s) :
    p'.held[n]? = some s := by
  obtain rfl | ⟨k, x, vs, -, rfl⟩ := Platform.request_cases h
  · exact hn
  · obtain ⟨hlt, -⟩ := List.getElem?_eq_some_iff.1 hn
    exact (List.getElem?_append_left hlt).trans hn

/-- What a request answers and leaves in its slot is a function of that slot and, for a restore, of the copies held. -/
theorem Platform.request_congr {p₂ : Platform} (hlen : p₂.slots.length = p.slots.length) (hslot : p₂.slots[j]? = p.slots[j]?)
    (hq : ∀ into, q ≠ .clone into) (hheld : ∀ copy, q = .restore copy → p₂.held = p.held) :
    (p.request c fuel j q).map (fun r => (r.1, r.2.slots[j]?)) = (p₂.request c fuel j q).map (fun r => (r.1, r.2.slots[j]?)) := by
  have hput : ∀ x, (p₂.put j x).slots[j]? = (p.put j x).slots[j]? := fun x => by
    rw [Platform.slots_put_self, Platform.slots_put_self, hslot]
  cases q with
  | load text =>
    simp only [Platform.request, hlen]
    split
    · simp [hslot]
    · cases loadText c text <;> simp [hslot, hput]
  | command cmd =>
    have hat : p₂.at j = p.at j := by rw [Platform.at, Platform.at, hslot]
    simp only [Platform.request, hat]
    cases p.at j with
    | none => simp [hslot]
    | some x => simp [Function.comp_def, Platform.keep, hput]
  | clone into => exact absurd rfl (hq into)
  | restore copy =>
    simp only [Platform.request, hlen, hheld copy rfl]
    split
    · simp [hslot]
    · cases p.held[copy]? <;> simp [hslot, hput]

/-- Settles O58: a request writes its own slot alone, or a snapshot's, from what that slot holds. -/
theorem instancesAreIsolated : Obligations.InstancesAreIsolated := by
  intro c fuel j q p
  exact ⟨fun a p' h => ⟨Platform.request_length h, fun k hj hq => Platform.request_slots_ne h hj hq⟩,
    fun p₂ hlen hslot hq hheld => Platform.request_congr hlen hslot hq hheld⟩

/-- A session made in another slot from a slot's snapshot, which leaves the slot. -/
theorem Platform.request_clone {into : Nat} {x : Session} (hx : p.at j = some x) (hinto : into < p.slots.length) :
    p.request c fuel j (.clone into) = some (.reply .ok, p.put into (Session.fresh x.core)) := by
  simp [Platform.request, hx, hinto]

/-- A session made in a slot from a copy the host holds. -/
theorem Platform.request_restore {n : Nat} {s : State} (hj : j < p.slots.length) (hn : p.held[n]? = some s) :
    p.request c fuel j (.restore n) = some (.reply .ok, p.put j (Session.fresh s)) := by
  simp [Platform.request, hn, hj]

/-- Putting back what a slot holds changes nothing. -/
theorem Platform.put_at {x : Session} (hx : p.at j = some x) : p.put j x = p := by
  obtain ⟨o, ho, rfl⟩ : ∃ o, p.slots[j]? = some o ∧ o = some x := by
    simpa [Platform.at, Option.join_eq_some_iff] using hx
  obtain ⟨hlt, hget⟩ := List.getElem?_eq_some_iff.1 ho
  rw [Platform.put, ← hget, List.set_getElem_self]

/-- SNAPSHOT returns the whole state, which the host then holds, and changes no slot. -/
theorem Platform.request_snapshot {x : Session} (hx : p.at j = some x) :
    p.request c fuel j (.command .snapshot) = some (.reply (.snapshot x.core), { p with held := p.held ++ [x.core] }) := by
  simp [Platform.request, hx, Session.command, Platform.put_at hx, Platform.keep, Reply.copies]

/-- Settles O59: a snapshot's session and the host's copies are values of their own, which only a request on their own slot, or none,
writes. -/
theorem snapshotIsIndependent : Obligations.SnapshotIsIndependent := by
  intro c fuel p
  refine ⟨fun j into x hx hinto hne => ?_, fun j x hx => Platform.request_snapshot hx,
    fun j q a p' h n s hn => Platform.request_held h hn, fun j n s hj hn => ?_⟩
  · have hcopy := Platform.at_put_self p (Session.fresh x.core) hinto
    refine ⟨_, Platform.request_clone hx hinto, (Platform.at_put_ne p _ hne.symm).trans hx, hcopy, fun fuel' cmd a p'' h => ?_⟩
    have hkept := Platform.request_slots_ne h hne nofun
    rw [Platform.at, hkept]
    exact hcopy
  · exact ⟨_, Platform.request_restore hj hn, Platform.at_put_self p _ hj, rfl, fun k hk => Platform.at_put_ne p _ hk⟩

end Sys2Proof.Machine
end

section
/-! SUPPORT. MemRead and MemWrite on each side of the address checks' bounds (spec/20_memory.md R51, R54, R55). -/

namespace Sys2Proof.Machine

variable {c : Config} {s : State} {k : Option Nat} {a : Int}

/-- A negative address fails the check (R51). -/
theorem checkAddr_of_neg (h : a < 0) : checkAddr c k a = .error ⟨.invalidAddress, k, some a⟩ := if_pos h

/-- An address at or above `MEM_LIMIT` fails the check (R51). -/
theorem checkAddr_of_memLimit_le (h0 : 0 ≤ a) (h : (c.memLimit : Int) ≤ a) :
    checkAddr c k a = .error ⟨.capacityExceeded, k, some a⟩ := by
  rw [checkAddr, if_neg (not_lt.2 h0), if_pos h]

/-- A read raises what its address check raises. -/
theorem memRead_of_checkAddr_error {r : Raise} (h : checkAddr c k a = .error r) : memRead c k a s = .error r := by
  rw [memRead, h]; rfl

/-- A write raises what its address check raises. -/
theorem memWrite_of_checkAddr_error {r : Raise} {v : Word} (h : checkAddr c k a = .error r) : memWrite c k a v s = .error r := by
  rw [memWrite, h]; rfl

/-- A read of an existing address. -/
theorem memRead_of_lt (h0 : 0 ≤ a) (h : a < c.memLimit) : memRead c k a s = .ok (s.mem.get a.toNat, s.grow a.toNat) :=
  memRead_eq_ok_iff.2 ⟨a.toNat, (Int.toNat_of_nonneg h0).symm, by omega, rfl⟩

/-- A write to an existing address. -/
theorem memWrite_of_lt (v : Word) (h0 : 0 ≤ a) (h : a < c.memLimit) :
    memWrite c k a v s = .ok ((s.grow a.toNat).storeWord a.toNat v) :=
  memWrite_eq_ok_iff.2 ⟨a.toNat, (Int.toNat_of_nonneg h0).symm, by omega, rfl⟩

/-- Settles O15: the address check decides which of the three it is. -/
theorem memReadRule : Obligations.MemReadRule := by
  intro c k a s
  exact ⟨fun h => memRead_of_checkAddr_error (checkAddr_of_neg h),
    fun h0 h => memRead_of_checkAddr_error (checkAddr_of_memLimit_le h0 h), fun h0 h => memRead_of_lt h0 h⟩

/-- Settles O16: the address check's faults, and otherwise what `Memory.set` does to a canonical memory. -/
theorem memWriteReadsBack : Obligations.MemWriteReadsBack := by
  intro c k a v s hw
  refine ⟨fun h => memWrite_of_checkAddr_error (checkAddr_of_neg h),
    fun h0 h => memWrite_of_checkAddr_error (checkAddr_of_memLimit_le h0 h), fun h0 h => ?_⟩
  have hread :
      memRead c k a ((s.grow a.toNat).storeWord a.toNat v) = .ok (v, ((s.grow a.toNat).storeWord a.toNat v).grow a.toNat) := by
    rw [memRead_of_lt h0 h, State.storeWord_mem, State.grow_mem, Memory.get_set_self hw]
  exact ⟨_, memWrite_of_lt v h0 h, Memory.wf_set hw _ v, rfl, ⟨_, hread⟩, fun b hb => Memory.get_set_ne s.mem v hb⟩

end Sys2Proof.Machine
end

section
/-! SUPPORT. A step once its fetch is known (spec/40_controller.md R102), and a store that the next fetch reads (spec/20_memory.md R65,
spec/70_reset_and_hazards.md R255). -/

namespace Sys2Proof.Machine

variable {c : Config} {s t : State} {i : Instr}

/-- A state that can step takes the fault its fetch raises. -/
theorem stepUnder_of_fetchInstr_error {r : Raise} (hs : stoppedResult s = none) (hf : fetchInstr c s = .error r) :
    stepUnder c s = takeFault c s r := by
  simp only [stepUnder, hs, hf]

/-- A state that can step executes the instruction it fetches. -/
theorem stepUnder_of_fetchInstr_ok (hs : stoppedResult s = none) (hf : fetchInstr c s = .ok i) :
    stepUnder c s = execUnder c i s := by
  simp only [stepUnder, hs, hf]

/-- A word that does not decode makes its fetch raise the decoder's fault. -/
theorem fetchInstr_of_decodeHeader_error {r : Raise} (hpc : s.pc < c.memLimit) (hd : decodeHeader (wordAt s 0) = .error r) :
    fetchInstr c s = .error r := by
  simp only [fetchInstr, if_neg (not_le.2 hpc), hd]

/-- A word that decodes is fetched with its parameter words where the last of them exists. -/
theorem fetchInstr_of_decodeHeader_ok {h : Header} (hd : decodeHeader (wordAt s 0) = .ok h) (hlast : s.pc + h.nparams < c.memLimit) :
    fetchInstr c s = .ok (h.withParams (wordAt s)) :=
  fetchInstr_eq_ok_iff.2 ⟨by omega, h, hd, beyondParam_eq_none_iff.2 (.inr hlast), rfl⟩

/-- A write operand is one cell at most. -/
theorem TargetIs.unique {p : Param} {m n : Nat} (hm : TargetIs c s p m) (hn : TargetIs c s p n) : m = n :=
  Int.ofNat.inj (hm.1.unique hn.1)

/-- An instruction that jumps has no write operand. -/
theorem JumpsTo.target_eq_none {y : Word} (h : JumpsTo c s i y) : i.target = none := by
  obtain ⟨a, b, x, ⟨rfl, -⟩ | ⟨rfl, -⟩, -⟩ := h <;> rfl

/-- An instruction with a write operand commits one store there, and leaves the fault register and the halted flag. -/
theorem Commits.stores {r : StepResult} {pc' n : Nat} {w : State} {d : Param} (h : Commits c s i r pc' w) (hd : i.target = some d)
    (hn : TargetIs c s d n) : (∃ v, w.mem = s.mem.set n v) ∧ w.fault = s.fault ∧ w.halted = s.halted := by
  cases h with
  | store hd' hn' =>
    obtain rfl := Option.some.inj (hd'.symm.trans hd)
    obtain rfl := hn'.unique hn
    exact ⟨⟨_, rfl⟩, rfl, rfl⟩
  | input hn' =>
    cases hd
    obtain rfl := hn'.unique hn
    exact ⟨⟨_, rfl⟩, rfl, rfl⟩
  | jump hj => cases hj.target_eq_none.symm.trans hd
  | fallThrough hi => obtain rfl | rfl := hi <;> cases hd
  | output | rebase | halt => cases hd

/-- A running step of an instruction with a write operand stores one word there and leaves a state that can step. -/
theorem running_step_stores {d : Param} {n : Nat} (hf : fetchInstr c s = .ok i) (hd : i.target = some d) (hn : TargetIs c s d n)
    (hstep : stepUnder c s = (.running, t)) : (∃ v, t.mem = s.mem.set n v) ∧ stoppedResult t = none := by
  have h := stepUnder_steps c s
  rw [hstep] at h
  cases h with
  | stays hs => exact absurd hs stoppedResult_ne_running
  | commits hs hf' hc =>
    obtain rfl := Except.ok.inj (hf.symm.trans hf')
    obtain ⟨hmem, hfault, hhalted⟩ := hc.stores hd hn
    obtain ⟨hh, hnone⟩ := stoppedResult_eq_none_iff.1 hs
    exact ⟨hmem, stoppedResult_eq_none_iff.2 ⟨hhalted.trans hh, hfault.trans hnone⟩⟩

/-- Settles O18: the stored word is what a canonical memory reads at the next `pc`, so the next fetch decodes it. -/
theorem storeIsFetchedNext : Obligations.StoreIsFetchedNext := by
  rintro c s t i d n hw hf hd hn hstep rfl
  obtain ⟨⟨r, hmem⟩, hs⟩ := running_step_stores hf hd hn hstep
  have hr : wordAt t 0 = r := by
    rw [wordAt, Nat.add_zero, hmem, Memory.get_set_self hw]
  refine ⟨r, hmem, hr, fun e he => ?_, fun h hh hlast => ?_⟩
  · exact stepUnder_of_fetchInstr_error hs (fetchInstr_of_decodeHeader_error hn.2 (hr ▸ he))
  · exact stepUnder_of_fetchInstr_ok hs (fetchInstr_of_decodeHeader_ok (hr ▸ hh) hlast)

end Sys2Proof.Machine
end

section
/-! SUPPORT. What the decoder answers, both ways: a header exactly where the tables give it, and the fault of the first bad mode digit or
of an opcode that has no row (spec/30_encoding.md R71 to R80). -/

namespace Sys2Proof

open Machine

/-! ### The four groups of modes -/

/-- One write parameter is read exactly as its digit. -/
theorem modesW_eq_ok_iff {mk : Mode → Header} {v : Nat} {h : Header} :
    modesW mk v = .ok h ↔ ∃ d, digit v 2 = d.toDigit ∧ d ≠ .immediate ∧ h = mk d := by
  simp [modesW, except_bind_eq_ok_iff, writeMode_eq_ok_iff, and_assoc, @eq_comm _ h]

/-- One read parameter is read exactly as its digit. -/
theorem modesR_eq_ok_iff {mk : Mode → Header} {v : Nat} {h : Header} :
    modesR mk v = .ok h ↔ ∃ a, digit v 2 = a.toDigit ∧ h = mk a := by
  simp [modesR, except_bind_eq_ok_iff, readMode_eq_ok_iff, @eq_comm _ h]

/-- Two read parameters are read exactly as their digits. -/
theorem modesRR_eq_ok_iff {mk : Mode → Mode → Header} {v : Nat} {h : Header} :
    modesRR mk v = .ok h ↔ ∃ a b, digit v 2 = a.toDigit ∧ digit v 3 = b.toDigit ∧ h = mk a b := by
  simp [modesRR, except_bind_eq_ok_iff, readMode_eq_ok_iff, @eq_comm _ h]

/-- Two read parameters and a write parameter are read exactly as their digits. -/
theorem modesRRW_eq_ok_iff {mk : Mode → Mode → Mode → Header} {v : Nat} {h : Header} :
    modesRRW mk v = .ok h ↔
      ∃ a b d, digit v 2 = a.toDigit ∧ digit v 3 = b.toDigit ∧ digit v 4 = d.toDigit ∧ d ≠ .immediate ∧ h = mk a b d := by
  simp [modesRRW, except_bind_eq_ok_iff, readMode_eq_ok_iff, writeMode_eq_ok_iff, and_assoc, @eq_comm _ h]

/-- A legal digit is read as some mode. -/
theorem exists_readMode_eq_ok {k v : Nat} (h : digit v (k + 1) ≤ 2) : ∃ m, readMode k v = .ok m := by
  cases hm : readMode k v with
  | ok m => exact ⟨m, rfl⟩
  | error r => have := (readMode_eq_error_iff.1 hm).1; omega

/-- A read parameter's bad digit raises its fault. -/
theorem readMode_of_modeRaises {k v : Nat} {write : Option Nat} {r : Raise} (hk : write ≠ some k) (h : ModeRaises v write k r) :
    readMode k v = .error r :=
  readMode_eq_error_iff.2 (h.resolve_right fun h => hk h.1)

/-- A write parameter's bad digit raises its fault. -/
theorem writeMode_of_modeRaises {k v : Nat} {r : Raise} (h : ModeRaises v (some k) k r) : writeMode k v = .error r :=
  writeMode_eq_error_iff.2 (h.imp_right And.right)

/-- Reading a mode looks at its digit alone. -/
theorem readMode_congr {k v w : Nat} (h : digit v (k + 1) = digit w (k + 1)) : readMode k v = readMode k w := by
  simp only [readMode, h]

/-- Reading a write mode looks at its digit alone. -/
theorem writeMode_congr {k v w : Nat} (h : digit v (k + 1) = digit w (k + 1)) : writeMode k v = writeMode k w := by
  simp only [writeMode, readMode_congr h]

/-! ### The rows of the opcode table -/

/-- How the words of a row with `n` parameters and the write parameter `write` are read: in one of the four groups of modes, or not at
all. -/
inductive ReadsModes : Nat → Option Nat → (Nat → Except Raise Header) → Prop
  | none : ReadsModes 0 none fun _ => .ok .halt
  | read (mk : Mode → Header) : ReadsModes 1 none (modesR mk)
  | write (mk : Mode → Header) : ReadsModes 1 (some 1) (modesW mk)
  | reads (mk : Mode → Mode → Header) : ReadsModes 2 none (modesRR mk)
  | ternary (mk : Mode → Mode → Mode → Header) : ReadsModes 3 (some 3) (modesRRW mk)

/-- Every row of the opcode table reads the modes of its parameters (R78, R80). -/
theorem decodeValue_of_row {row : Nat × Nat × Option Nat} (hrow : row ∈ opcodeRows) :
    ∃ f, ReadsModes row.2.1 row.2.2 f ∧ ∀ v, v % 100 = row.1 → decodeValue v = f v := by
  simp only [opcodeRows, List.mem_cons, List.not_mem_nil, or_false] at hrow
  obtain rfl | rfl | rfl | rfl | rfl | rfl | rfl | rfl | rfl | rfl := hrow
  · exact ⟨_, .ternary .add, fun v e => by simp only [decodeValue, e]⟩
  · exact ⟨_, .ternary .mul, fun v e => by simp only [decodeValue, e]⟩
  · exact ⟨_, .write .inp, fun v e => by simp only [decodeValue, e]⟩
  · exact ⟨_, .read .out, fun v e => by simp only [decodeValue, e]⟩
  · exact ⟨_, .reads .jt, fun v e => by simp only [decodeValue, e]⟩
  · exact ⟨_, .reads .jf, fun v e => by simp only [decodeValue, e]⟩
  · exact ⟨_, .ternary .lt, fun v e => by simp only [decodeValue, e]⟩
  · exact ⟨_, .ternary .eq, fun v e => by simp only [decodeValue, e]⟩
  · exact ⟨_, .read .arb, fun v e => by simp only [decodeValue, e]⟩
  · exact ⟨_, .none, fun v e => by simp only [decodeValue, e]⟩

section
variable {n v w : Nat} {write : Option Nat} {f : Nat → Except Raise Header} {r : Raise}

/-- A row looks only at the mode digits of its own parameters (R75). -/
theorem ReadsModes.congr (hf : ReadsModes n write f) (h : ∀ k, 1 ≤ k → k ≤ n → digit v (k + 1) = digit w (k + 1)) :
    f v = f w := by
  cases hf with
  | none => rfl
  | read mk => rw [modesR, readMode_congr (h 1 (by omega) (by omega)), ← modesR]
  | write mk => rw [modesW, writeMode_congr (h 1 (by omega) (by omega)), ← modesW]
  | reads mk =>
    rw [modesRR, readMode_congr (h 1 (by omega) (by omega)), readMode_congr (h 2 (by omega) (by omega)), ← modesRR]
  | ternary mk =>
    rw [modesRRW, readMode_congr (h 1 (by omega) (by omega)), readMode_congr (h 2 (by omega) (by omega)),
      writeMode_congr (h 3 (by omega) (by omega)), ← modesRRW]

/-- A row raises the fault of its first bad mode digit (R78). -/
theorem ReadsModes.eq_error (hf : ReadsModes n write f) (h : FirstBadMode v n write r) : f v = .error r := by
  obtain ⟨k, h1, hk, hbefore, hbad⟩ := h
  cases hf with
  | none => omega
  | read mk =>
    obtain rfl : k = 1 := by omega
    exact except_bind_eq_error_iff.2 (.inl (readMode_of_modeRaises (by simp) hbad))
  | write mk =>
    obtain rfl : k = 1 := by omega
    exact except_bind_eq_error_iff.2 (.inl (writeMode_of_modeRaises hbad))
  | reads mk =>
    obtain rfl | rfl : k = 1 ∨ k = 2 := by omega
    · exact except_bind_eq_error_iff.2 (.inl (readMode_of_modeRaises (by simp) hbad))
    · obtain ⟨a, ha⟩ := exists_readMode_eq_ok (hbefore 1 (by omega) (by omega))
      exact except_bind_eq_error_iff.2 (.inr ⟨a, ha, except_bind_eq_error_iff.2 (.inl (readMode_of_modeRaises (by simp) hbad))⟩)
  | ternary mk =>
    obtain rfl | h2 : k = 1 ∨ 2 ≤ k := by omega
    · exact except_bind_eq_error_iff.2 (.inl (readMode_of_modeRaises (by simp) hbad))
    obtain ⟨a, ha⟩ := exists_readMode_eq_ok (hbefore 1 (by omega) (by omega))
    refine except_bind_eq_error_iff.2 (.inr ⟨a, ha, except_bind_eq_error_iff.2 ?_⟩)
    obtain rfl | rfl : k = 2 ∨ k = 3 := by omega
    · exact .inl (readMode_of_modeRaises (by simp) hbad)
    · obtain ⟨b, hb⟩ := exists_readMode_eq_ok (hbefore 2 (by omega) (by omega))
      exact .inr ⟨b, hb, except_bind_eq_error_iff.2 (.inl (writeMode_of_modeRaises hbad))⟩

end

/-! ### The opcode map and the decoder -/

/-- The opcode map answers a header exactly where the tables give it (R71, R80). -/
theorem decodeValue_eq_ok_iff {v : Nat} {h : Header} : decodeValue v = .ok h ↔ HeaderOf v h := by
  constructor
  · intro e
    unfold decodeValue at e
    split at e
    next hop => obtain ⟨a, b, d, hm, hn, ho, hd, rfl⟩ := modesRRW_eq_ok_iff.1 e; exact ⟨hop, hm, hn, ho, hd⟩
    next hop => obtain ⟨a, b, d, hm, hn, ho, hd, rfl⟩ := modesRRW_eq_ok_iff.1 e; exact ⟨hop, hm, hn, ho, hd⟩
    next hop => obtain ⟨d, hm, hd, rfl⟩ := modesW_eq_ok_iff.1 e; exact ⟨hop, hm, hd⟩
    next hop => obtain ⟨a, hm, rfl⟩ := modesR_eq_ok_iff.1 e; exact ⟨hop, hm⟩
    next hop => obtain ⟨a, b, hm, hn, rfl⟩ := modesRR_eq_ok_iff.1 e; exact ⟨hop, hm, hn⟩
    next hop => obtain ⟨a, b, hm, hn, rfl⟩ := modesRR_eq_ok_iff.1 e; exact ⟨hop, hm, hn⟩
    next hop => obtain ⟨a, b, d, hm, hn, ho, hd, rfl⟩ := modesRRW_eq_ok_iff.1 e; exact ⟨hop, hm, hn, ho, hd⟩
    next hop => obtain ⟨a, b, d, hm, hn, ho, hd, rfl⟩ := modesRRW_eq_ok_iff.1 e; exact ⟨hop, hm, hn, ho, hd⟩
    next hop => obtain ⟨a, hm, rfl⟩ := modesR_eq_ok_iff.1 e; exact ⟨hop, hm⟩
    next hop => cases e; exact hop
    next => cases e
  · intro e
    cases h with
    | add a b d =>
      obtain ⟨hop, hm, hn, ho, hd⟩ := e
      simp only [decodeValue, hop]
      exact modesRRW_eq_ok_iff.2 ⟨a, b, d, hm, hn, ho, hd, rfl⟩
    | mul a b d =>
      obtain ⟨hop, hm, hn, ho, hd⟩ := e
      simp only [decodeValue, hop]
      exact modesRRW_eq_ok_iff.2 ⟨a, b, d, hm, hn, ho, hd, rfl⟩
    | inp d =>
      obtain ⟨hop, hm, hd⟩ := e
      simp only [decodeValue, hop]
      exact modesW_eq_ok_iff.2 ⟨d, hm, hd, rfl⟩
    | out a =>
      obtain ⟨hop, hm⟩ := e
      simp only [decodeValue, hop]
      exact modesR_eq_ok_iff.2 ⟨a, hm, rfl⟩
    | jt a b =>
      obtain ⟨hop, hm, hn⟩ := e
      simp only [decodeValue, hop]
      exact modesRR_eq_ok_iff.2 ⟨a, b, hm, hn, rfl⟩
    | jf a b =>
      obtain ⟨hop, hm, hn⟩ := e
      simp only [decodeValue, hop]
      exact modesRR_eq_ok_iff.2 ⟨a, b, hm, hn, rfl⟩
    | lt a b d =>
      obtain ⟨hop, hm, hn, ho, hd⟩ := e
      simp only [decodeValue, hop]
      exact modesRRW_eq_ok_iff.2 ⟨a, b, d, hm, hn, ho, hd, rfl⟩
    | eq a b d =>
      obtain ⟨hop, hm, hn, ho, hd⟩ := e
      simp only [decodeValue, hop]
      exact modesRRW_eq_ok_iff.2 ⟨a, b, d, hm, hn, ho, hd, rfl⟩
    | arb a =>
      obtain ⟨hop, hm⟩ := e
      simp only [decodeValue, hop]
      exact modesR_eq_ok_iff.2 ⟨a, hm, rfl⟩
    | halt => simp only [decodeValue, show v % 100 = 99 from e]

/-- The opcode map raises the fault of the first bad mode digit of its row (R78). -/
theorem decodeValue_eq_error_of_firstBadMode {v : Nat} {row : Nat × Nat × Option Nat} {r : Raise} (hrow : row ∈ opcodeRows)
    (hop : v % 100 = row.1) (h : FirstBadMode v row.2.1 row.2.2 r) : decodeValue v = .error r := by
  obtain ⟨f, hf, hv⟩ := decodeValue_of_row hrow
  rw [hv v hop, hf.eq_error h]

/-- An opcode without a row raises UnknownOpcode (R79). -/
theorem decodeValue_eq_unknownOpcode {v : Nat} (h : v % 100 = 0 ∨ (10 ≤ v % 100 ∧ v % 100 ≤ 98)) :
    decodeValue v = .error ⟨.unknownOpcode, none, some (v % 100 : Nat)⟩ := by
  unfold decodeValue
  split
  any_goals omega
  rfl

/-- A bad mode digit never raises UnknownOpcode. -/
theorem FirstBadMode.code_ne_unknownOpcode {v n : Nat} {write : Option Nat} {r : Raise} (h : FirstBadMode v n write r) :
    r.code ≠ .unknownOpcode := by
  obtain ⟨k, -, -, -, ⟨-, rfl⟩ | ⟨-, -, rfl⟩⟩ := h <;> simp

/-- A negative word raises UnknownOpcode (R73). -/
theorem decodeHeader_of_neg {w : Word} (h : w.toInt < 0) : decodeHeader w = .error ⟨.unknownOpcode, none, none⟩ := if_pos h

/-- A non-negative word decodes by its value (R78). -/
theorem decodeHeader_of_nonneg {w : Word} (h : 0 ≤ w.toInt) : decodeHeader w = decodeValue w.toNat := if_neg (not_lt.2 h)

/-- Values that agree in their low `n + 2` decimal digits agree in the mode digits of parameters 1 to `n`. -/
theorem digit_eq_of_mod_eq {v w n k : Nat} (h : v % 10 ^ (n + 2) = w % 10 ^ (n + 2)) (hk : k ≤ n) :
    digit v (k + 1) = digit w (k + 1) := by
  have low (x : Nat) : digit x (k + 1) = digit (x % 10 ^ (n + 2)) (k + 1) := by
    rw [digit, digit, ← Nat.pow_sub_mul_pow 10 (show k + 1 ≤ n + 2 by omega), Nat.mod_mul_left_div_self,
      Nat.mod_mod_of_dvd _ (dvd_pow_self 10 (by omega))]
  rw [low v, low w, h]

/-- Settles O2: the opcode map answers exactly the tables' headers, and a negative word none. -/
theorem decodeReadsDecimalDigits : Obligations.DecodeReadsDecimalDigits := by
  intro w h
  rcases lt_or_ge w.toInt 0 with hneg | hpos
  · simp [decodeHeader_of_neg hneg, not_le.2 hneg]
  · simp only [decodeHeader_of_nonneg hpos, decodeValue_eq_ok_iff, hpos, true_and]

/-- Settles O3: the opcode map's other faults are those of bad mode digits, which have their own codes. -/
theorem unknownOpcodeExactly : Obligations.UnknownOpcodeExactly := by
  intro w
  rcases lt_or_ge w.toInt 0 with hneg | hpos
  · simp [decodeHeader_of_neg hneg, hneg]
  rw [decodeHeader_of_nonneg hpos, toInt_eq_toNat_of_nonneg hpos]
  constructor
  · rintro ⟨r, hr, hcode⟩
    obtain ⟨row, -, -, hbad⟩ | ⟨hop, -⟩ := decodeValue_error_cases hr
    · exact absurd hcode hbad.code_ne_unknownOpcode
    · omega
  · intro h
    exact ⟨_, decodeValue_eq_unknownOpcode (by omega), rfl⟩

/-- Settles O4: either digit makes parameter `k` the first bad one of its row. -/
theorem firstBadModeFaults : Obligations.FirstBadModeFaults := by
  intro w hpos row hrow hop k h1 hk hbefore
  have raises {r : Raise} (h : ModeRaises w.toNat row.2.2 k r) : decodeHeader w = .error r :=
    (decodeHeader_of_nonneg hpos).trans (decodeValue_eq_error_of_firstBadMode hrow hop ⟨k, h1, hk, hbefore, h⟩)
  exact ⟨fun h => raises (.inl ⟨h, rfl⟩), fun hwrite h => raises (.inr ⟨hwrite, h, rfl⟩)⟩

/-- Settles O5: the row both words belong to reads only the digits they share. -/
theorem ignoredDigitsDoNotMatter : Obligations.IgnoredDigitsDoNotMatter := by
  intro v w hv hw row hrow hmod hop
  have hop' : w.toNat % 100 = row.1 := by
    have hdvd : 100 ∣ 10 ^ (row.2.1 + 2) := Dvd.intro_left _ (pow_add 10 row.2.1 2).symm
    rw [← Nat.mod_mod_of_dvd _ hdvd, ← hmod, Nat.mod_mod_of_dvd _ hdvd, hop]
  obtain ⟨f, hf, hdecode⟩ := decodeValue_of_row hrow
  rw [decodeHeader_of_nonneg hv, decodeHeader_of_nonneg hw, hdecode _ hop, hdecode _ hop']
  exact hf.congr fun k _ hk => digit_eq_of_mod_eq hmod hk

end Sys2Proof
end

section
/-! SUPPORT. Decoding a list of words, and the decimal digits of the canonical instruction word (spec/30_encoding.md R70, R83). -/

namespace Sys2Proof

open Machine

/-! ### Decoding a list of words -/

/-- A list decodes exactly where its first word does and the parameter words are there. -/
theorem decode_cons_eq_ok_iff {w : Word} {ws rest : List Word} {i : Instr} :
    decode (w :: ws) = .ok (i, rest) ↔
      ∃ h, decodeHeader w = .ok h ∧ h.nparams ≤ ws.length ∧ i = h.withParams (fun k => ws.getD (k - 1) 0) ∧
        rest = ws.drop h.nparams := by
  rw [decode]
  cases decodeHeader w with
  | error r => simp
  | ok h =>
    by_cases hlen : ws.length < h.nparams
    · simp [hlen]
    · simp [hlen, not_lt.1 hlen, eq_comm]

/-- The parameter words of a header's instruction are the ones it was given, in order. -/
theorem Header.words_withParams (h : Header) (p : Nat → Word) :
    (h.withParams p).params.map (·.word) = (List.range h.nparams).map fun k => p (k + 1) := by
  cases h <;> rfl

/-- Reading the first `n` entries of a list that has them takes them off its front. -/
theorem map_range_getD {ws : List Word} {n : Nat} (h : n ≤ ws.length) : ((List.range n).map fun k => ws.getD k 0) = ws.take n := by
  refine List.ext_getElem (by simpa using h) fun k hk _ => ?_
  rw [List.length_map, List.length_range] at hk
  simp [hk.trans_le h]

/-- Settles O7: the parameter words are the front of what follows the instruction word, and the rest is what they leave. -/
theorem decodedIsWellFormed : Obligations.DecodedIsWellFormed := by
  intro ws rest i e
  cases ws with
  | nil => cases e
  | cons w ws =>
    obtain ⟨h, hw, hlen, rfl, rfl⟩ := decode_cons_eq_ok_iff.1 e
    refine ⟨decodeHeader_wellFormed hw _, w, ?_⟩
    rw [Header.words_withParams]
    simp only [Nat.add_sub_cancel]
    rw [map_range_getD hlen, List.take_append_drop]

/-! ### The canonical instruction word -/

/-- A mode's digit is 0, 1 or 2. -/
theorem Mode.toDigit_le (m : Mode) : m.toDigit ≤ 2 := by cases m <;> decide

/-- The mode digits from parameter `k` on leave the decimal places below its own empty. -/
theorem pow_dvd_modeDigits (ps : List Param) (k : Nat) : 10 ^ (k + 1) ∣ modeDigits k ps := by
  induction ps generalizing k with
  | nil => exact dvd_zero _
  | cons p ps ih => exact dvd_add (dvd_mul_left _ _) ((pow_dvd_pow 10 (by omega)).trans (ih (k + 1)))

/-- A number below parameter `k`'s decimal place stays below the next place when the parameter's digit is added. -/
theorem add_toDigit_mul_lt {b k : Nat} (m : Mode) (hb : b < 10 ^ (k + 1)) : b + m.toDigit * 10 ^ (k + 1) < 10 ^ (k + 1 + 1) := by
  have := Nat.mul_le_mul_right (10 ^ (k + 1)) m.toDigit_le
  rw [pow_succ 10 (k + 1)]
  omega

/-- Below the decimal places of the mode digits a smaller number can stand: each digit is still its parameter's mode. -/
theorem digit_add_modeDigits {ps : List Param} {q : Param} {b k j : Nat} (hb : b < 10 ^ (k + 1)) (hq : ps[j]? = some q) :
    digit (b + modeDigits k ps) (k + 1 + j) = q.mode.toDigit := by
  induction ps generalizing b k j with
  | nil => cases hq
  | cons p ps ih =>
    rw [modeDigits, ← Nat.add_assoc]
    cases j with
    | succ j =>
      rw [show k + 1 + (j + 1) = k + 1 + 1 + j by omega]
      exact ih (add_toDigit_mul_lt p.mode hb) hq
    | zero =>
      obtain rfl : p = q := Option.some.inj hq
      obtain ⟨c, hc⟩ := pow_dvd_modeDigits ps (k + 1)
      have hp := p.mode.toDigit_le
      calc digit (b + p.mode.toDigit * 10 ^ (k + 1) + modeDigits (k + 1) ps) (k + 1)
          = (b + 10 ^ (k + 1) * (p.mode.toDigit + 10 * c)) / 10 ^ (k + 1) % 10 := by rw [digit, hc]; ring_nf
        _ = (p.mode.toDigit + 10 * c) % 10 := by
          rw [Nat.add_mul_div_left _ _ (by positivity), Nat.div_eq_of_lt hb, Nat.zero_add]
        _ = p.mode.toDigit := by omega

/-- Each mode digit adds one decimal place to the bound. -/
theorem add_modeDigits_lt {ps : List Param} {b k : Nat} (hb : b < 10 ^ (k + 1)) : b + modeDigits k ps < 10 ^ (k + 1 + ps.length) := by
  induction ps generalizing b k with
  | nil => exact hb
  | cons p ps ih =>
    rw [modeDigits, ← Nat.add_assoc, List.length_cons, show k + 1 + (ps.length + 1) = k + 1 + 1 + ps.length by omega]
    exact ih (add_toDigit_mul_lt p.mode hb)

/-- The value of the canonical instruction word (R83). -/
def encodeValue (i : Instr) : Nat := i.opcode + modeDigits 1 i.params

/-- An opcode has two decimal digits (R71). -/
theorem Instr.opcode_lt (i : Instr) : i.opcode < 100 := by cases i <;> simp [Instr.opcode]

/-- An instruction has at most three parameters (R70). -/
theorem Instr.length_params_le (i : Instr) : i.params.length ≤ 3 := by cases i <;> simp [Instr.params]

/-- The canonical instruction word has at most five decimal digits. -/
theorem encodeValue_lt (i : Instr) : encodeValue i < 10 ^ 5 :=
  (add_modeDigits_lt i.opcode_lt).trans_le (Nat.pow_le_pow_right (by omega) (by have := i.length_params_le; omega))

/-- The canonical instruction word is the word of its value. -/
theorem toNat_encodeWord (i : Instr) : (encodeWord i).toNat = encodeValue i := by
  have := encodeValue_lt i
  exact (BitVec.toNat_ofNat _ _).trans (Nat.mod_eq_of_lt (show encodeValue i < 2 ^ 64 by omega))

/-- The canonical instruction word is not negative. -/
theorem encodeWord_nonneg (i : Instr) : 0 ≤ (encodeWord i).toInt := by
  have := encodeValue_lt i
  rw [BitVec.toInt_eq_toNat_of_lt (by rw [toNat_encodeWord]; omega)]
  exact Int.natCast_nonneg _

/-- The low two decimal digits of the canonical instruction word are the opcode. -/
theorem encodeValue_mod (i : Instr) : encodeValue i % 100 = i.opcode := by
  obtain ⟨c, hc⟩ : 100 ∣ modeDigits 1 i.params := pow_dvd_modeDigits i.params 1
  rw [encodeValue, hc, Nat.add_mul_mod_self_left, Nat.mod_eq_of_lt i.opcode_lt]

/-- The mode digits of the canonical instruction word are the parameters' modes. -/
theorem digit_encodeValue {i : Instr} {q : Param} (j : Nat) (hq : i.params[j]? = some q) :
    digit (encodeValue i) (2 + j) = q.mode.toDigit := digit_add_modeDigits i.opcode_lt hq

/-- The header of an instruction: its opcode and its parameters' modes. -/
def Instr.header : Instr → Header
  | .add a b d => .add a.mode b.mode d.mode
  | .mul a b d => .mul a.mode b.mode d.mode
  | .inp d => .inp d.mode
  | .out a => .out a.mode
  | .jt a b => .jt a.mode b.mode
  | .jf a b => .jf a.mode b.mode
  | .lt a b d => .lt a.mode b.mode d.mode
  | .eq a b d => .eq a.mode b.mode d.mode
  | .arb a => .arb a.mode
  | .halt => .halt

/-- A header has a mode for each parameter of its instruction. -/
theorem Instr.nparams_header (i : Instr) : i.header.nparams = i.params.length := by cases i <;> rfl

/-- An instruction is its header with its own parameter words, whatever words follow. -/
theorem Instr.withParams_header (i : Instr) (rest : List Word) :
    i.header.withParams (fun k => (i.params.map (·.word) ++ rest).getD (k - 1) 0) = i := by cases i <;> rfl

/-- The tables give a well-formed instruction's canonical word its header. -/
theorem headerOf_encodeValue {i : Instr} (hi : WellFormed i = true) : HeaderOf (encodeValue i) i.header := by
  have hop := encodeValue_mod i
  have hdig {q : Param} (j : Nat) : i.params[j]? = some q → digit (encodeValue i) (2 + j) = q.mode.toDigit := digit_encodeValue j
  cases i with
  | add a b d => exact ⟨hop, hdig 0 rfl, hdig 1 rfl, hdig 2 rfl, Mode.writable_iff.1 hi⟩
  | mul a b d => exact ⟨hop, hdig 0 rfl, hdig 1 rfl, hdig 2 rfl, Mode.writable_iff.1 hi⟩
  | inp d => exact ⟨hop, hdig 0 rfl, Mode.writable_iff.1 hi⟩
  | out a => exact ⟨hop, hdig 0 rfl⟩
  | jt a b => exact ⟨hop, hdig 0 rfl, hdig 1 rfl⟩
  | jf a b => exact ⟨hop, hdig 0 rfl, hdig 1 rfl⟩
  | lt a b d => exact ⟨hop, hdig 0 rfl, hdig 1 rfl, hdig 2 rfl, Mode.writable_iff.1 hi⟩
  | eq a b d => exact ⟨hop, hdig 0 rfl, hdig 1 rfl, hdig 2 rfl, Mode.writable_iff.1 hi⟩
  | arb a => exact ⟨hop, hdig 0 rfl⟩
  | halt => exact hop

/-- The canonical word of a well-formed instruction decodes to its header. -/
theorem decodeHeader_encodeWord {i : Instr} (hi : WellFormed i = true) : decodeHeader (encodeWord i) = .ok i.header := by
  rw [decodeHeader_of_nonneg (encodeWord_nonneg i), toNat_encodeWord]
  exact decodeValue_eq_ok_iff.2 (headerOf_encodeValue hi)

/-- Settles O6: the canonical word decodes to the instruction's header, and the parameter words stand behind it. -/
theorem decodeOfEncode : Obligations.DecodeOfEncode := by
  intro i rest hi
  refine decode_cons_eq_ok_iff.2 ⟨i.header, decodeHeader_encodeWord hi, ?_, (i.withParams_header rest).symm, ?_⟩
  · simp [i.nparams_header]
  · simp [i.nparams_header]

/-- Settles O1: each word sequence decodes by evaluation. -/
theorem sampleWordsDecode : Obligations.SampleWordsDecode :=
  ⟨rfl, rfl, rfl, rfl, rfl, rfl, rfl, rfl, rfl, rfl⟩

end Sys2Proof
end

section
/-! SUPPORT. Fetching an instruction at the bounds of the memory, and a step of the instruction fetched (spec/40_controller.md R102 to R105,
R108). -/

namespace Sys2Proof.Machine

variable {c : Config} {s : State}

/-- A `pc` outside the memory makes its fetch raise CapacityExceeded (R103). -/
theorem fetchInstr_of_memLimit_le (h : c.memLimit ≤ s.pc) :
    fetchInstr c s = .error ⟨.capacityExceeded, none, some (s.pc : Int)⟩ := if_pos h

/-- The parameter word at `MEM_LIMIT` is the first beyond the memory (R108). -/
theorem beyondParam_eq_some_of_memLimit_eq {n k : Nat} (h1 : 1 ≤ k) (hk : k ≤ n) (he : s.pc + k = c.memLimit) :
    beyondParam c s n = some k := by
  cases hb : beyondParam c s n with
  | none =>
    have := beyondParam_eq_none_iff.1 hb
    omega
  | some j =>
    obtain ⟨-, -, hlim, hbefore⟩ := beyondParam_eq_some hb
    have hkj : ¬ k < j := fun hlt => (hbefore k h1 hlt).ne he
    exact congrArg some (by omega)

/-- A decoded word's parameter word at `MEM_LIMIT` makes its fetch raise CapacityExceeded (R108). -/
theorem fetchInstr_of_param_at_memLimit {h : Header} {k : Nat} (hd : decodeHeader (wordAt s 0) = .ok h) (h1 : 1 ≤ k)
    (hk : k ≤ h.nparams) (he : s.pc + k = c.memLimit) :
    fetchInstr c s = .error ⟨.capacityExceeded, some k, some ((s.pc + k : Nat) : Int)⟩ := by
  have hpc : ¬ c.memLimit ≤ s.pc := by omega
  simp only [fetchInstr, if_neg hpc, hd, beyondParam_eq_some_of_memLimit_eq h1 hk he, Nat.cast_add]

/-- Settles O9: each clause says what the fetch raises, and the step takes that fault. -/
theorem fetchFaultsInOrder : Obligations.FetchFaultsInOrder := by
  intro c s hh hfault
  have hs := stoppedResult_eq_none_iff.2 ⟨hh, hfault⟩
  exact ⟨fun h => stepUnder_of_fetchInstr_error hs (fetchInstr_of_memLimit_le h),
    fun hpc r hd => stepUnder_of_fetchInstr_error hs (fetchInstr_of_decodeHeader_error hpc hd),
    fun _ h k hd h1 hk he => stepUnder_of_fetchInstr_error hs (fetchInstr_of_param_at_memLimit hd h1 hk he)⟩

/-- The four words at `pc` hold every parameter word an instruction there can have. -/
theorem withParams_words_at_pc (h : Header) (s : State) :
    h.withParams (fun k => [wordAt s 1, wordAt s 2, wordAt s 3].getD (k - 1) 0) = h.withParams (wordAt s) := by
  cases h <;> rfl

/-- Settles O8: the instruction decoded from the words at `pc` is the one the step fetches. -/
theorem stepRunsDecodedInstruction : Obligations.StepRunsDecodedInstruction := by
  intro s i rest hh hfault hlen hdec
  obtain ⟨h, hd, -, rfl, -⟩ := decode_cons_eq_ok_iff.1 hdec
  rw [withParams_words_at_pc] at hlen ⊢
  have hlast : s.pc + h.nparams < Config.hardware.memLimit := by
    rw [Instr.length, Header.length_params_withParams] at hlen
    omega
  have hf := fetchInstr_of_decodeHeader_ok hd hlast
  rw [step_eq_answer, stepUnder_of_fetchInstr_ok (stoppedResult_eq_none_iff.2 ⟨hh, hfault⟩) hf, exec_eq_answer]

/-- An operand that names an address is read there. -/
theorem readOperand_of_paramAddr {k : Nat} {p : Param} {a : Int} (h : paramAddr s p = some a) :
    readOperand c k p s = (memRead c (some k) a s).map Prod.fst := by
  simp only [readOperand, h]
  cases memRead c (some k) a s <;> rfl

/-- Settles O17: the two modes that name an address read there, and Immediate names none. -/
theorem readOperandByMode : Obligations.ReadOperandByMode := by
  intro c k p s
  exact ⟨readOperand_of_paramAddr rfl, rfl, readOperand_of_paramAddr rfl⟩

end Sys2Proof.Machine
end

section
/-! SUPPORT. What a step leaves in the flags and in `pc`, by its step result (spec/40_controller.md R110, R112). -/

namespace Sys2Proof.Machine

variable {c : Config} {s : State} {i : Instr}

/-- A committed step is Running and leaves the halted flag, or is Halted and sets it. -/
theorem Commits.halted_cases {r : StepResult} {pc' : Nat} {w : State} (h : Commits c s i r pc' w) :
    (r = .running ∧ w.halted = s.halted) ∨ (r = .halted ∧ w.halted = true) := by
  cases h with
  | halt => exact .inr ⟨rfl, rfl⟩
  | store | input | output | jump | fallThrough | rebase => exact .inl ⟨rfl, rfl⟩

/-- Settles O11: a fault and a suspension leave all but what they write, and a committed step leaves the fault register. -/
theorem onlyCommittedStepsWrite : Obligations.OnlyCommittedStepsWrite := by
  intro c s hh hfault
  have h := stepUnder_steps c s
  generalize stepUnder c s = o at h ⊢
  cases h with
  | stays hs => simp [stoppedResult_eq_none_iff.2 ⟨hh, hfault⟩] at hs
  | @faults r =>
    refine ⟨fun f hf => ?_, nofun, nofun, nofun⟩
    exact ⟨takeFault_sameButFault c s r, faultRecord c s r, rfl, StepResult.faulted.inj hf, rfl⟩
  | suspends => exact ⟨nofun, fun _ => suspend_sameButExtent s, nofun, nofun⟩
  | commits _ _ hc =>
    have hnone := hc.fault_eq.trans hfault
    obtain ⟨rfl, hw⟩ | ⟨rfl, hw⟩ := hc.halted_cases
    · exact ⟨nofun, nofun, fun _ => ⟨hnone, hw.trans hh⟩, nofun⟩
    · exact ⟨nofun, nofun, nofun, fun _ => ⟨hnone, hw⟩⟩

/-- A committed step that is no taken jump advances `pc` by the instruction's length. -/
theorem Commits.pc_of_not_jumpsTo {r : StepResult} {pc' : Nat} {w : State} (h : Commits c s i r pc' w)
    (hno : ¬ ∃ y, JumpsTo c s i y) : pc' = s.pc + i.length := by
  cases h with
  | jump hj => exact absurd ⟨_, hj⟩ hno
  | store | input | output | fallThrough | rebase | halt => rfl

/-- A jump whose condition holds goes to its target, or faults on a negative one. -/
theorem jumpWhen_of_condition {taken : Int → Bool} {a b : Param} {x y : Word} (ha : ReadsAs c s a x) (hb : ReadsAs c s b y)
    (ht : taken x.toInt = true) :
    (0 ≤ y.toInt ∧ jumpWhen c taken a b s = (.running, commit s [a, b] y.toInt.toNat s)) ∨
    ∃ r, jumpWhen c taken a b s = takeFault c s r := by
  rcases lt_or_ge y.toInt 0 with hy | hy
  · exact .inr ⟨_, jumpWhen_faults (.inr ⟨x, y, ha, hb, ht, hy, rfl⟩)⟩
  · exact .inl ⟨hy, jumpWhen_taken ha hb ht hy⟩

/-- A taken jump goes to its target, or faults on a negative one (R160 to R162). -/
theorem execUnder_of_jumpsTo {y : Word} (h : JumpsTo c s i y) :
    (0 ≤ y.toInt ∧ execUnder c i s = (.running, commit s i.params y.toInt.toNat s)) ∨ ∃ r, execUnder c i s = takeFault c s r := by
  obtain ⟨a, b, x, ⟨rfl, hx⟩ | ⟨rfl, hx⟩, ha, hb⟩ := h
  · rw [execUnder_jt]
    exact jumpWhen_of_condition ha hb (decide_eq_true hx)
  · rw [execUnder_jf]
    exact jumpWhen_of_condition ha hb (decide_eq_true hx)

/-- Settles O12: a taken jump's `pc` is what its execution says, any other committed step's is the next instruction's, and no other step
writes it. -/
theorem programCounterAfterStep : Obligations.ProgramCounterAfterStep := by
  intro c s hh hfault
  have hs := stoppedResult_eq_none_iff.2 ⟨hh, hfault⟩
  have h := stepUnder_steps c s
  refine ⟨fun i hf hres => ⟨fun y hy => ?_, fun hno => ?_⟩, fun hres => ?_⟩
  · rw [stepUnder_of_fetchInstr_ok hs hf] at hres ⊢
    obtain ⟨hpos, e⟩ | ⟨r, e⟩ := execUnder_of_jumpsTo hy
    · rw [e]
      exact Int.toNat_of_nonneg hpos
    · simp [e, takeFault] at hres
  · generalize stepUnder c s = o at h hres ⊢
    cases h with
    | stays hs' => simp [hs] at hs'
    | faults => simp [takeFault] at hres
    | suspends => simp [suspend] at hres
    | commits _ hf' hc =>
      obtain rfl := Except.ok.inj (hf.symm.trans hf')
      exact hc.pc_of_not_jumpsTo hno
  · generalize stepUnder c s = o at h hres ⊢
    cases h with
    | stays | faults | suspends => rfl
    | commits _ _ hc => obtain ⟨rfl, -⟩ | ⟨rfl, -⟩ := hc.halted_cases <;> simp at hres

end Sys2Proof.Machine
end

section
/-! SUPPORT. What each group of instructions leaves unchanged, whether or not it was fetched (spec/40_controller.md R111, R112). -/

namespace Sys2Proof.Machine

variable {c : Config} {s : State} {i : Instr}

/-- ADD, MUL, LT and EQ are the shared shape with some result. -/
theorem execUnder_eq_ternary {a b dst : Param} (hi : i = .add a b dst ∨ i = .mul a b dst ∨ i = .lt a b dst ∨ i = .eq a b dst) :
    ∃ f, execUnder c i s = ternary c f a b dst s := by
  obtain rfl | rfl | rfl | rfl := hi
  · exact ⟨_, execUnder_add a b dst⟩
  · exact ⟨_, execUnder_mul a b dst⟩
  · exact ⟨_, execUnder_lt a b dst⟩
  · exact ⟨_, execUnder_eq a b dst⟩

/-- A write operand that is a cell raises nothing. -/
theorem TargetIs.writeTarget_ne_error {k n : Nat} {p : Param} {r : Raise} (h : TargetIs c s p n) : writeTarget c k p s ≠ .error r := by
  rw [writeTarget_eq_ok_iff.2 h]
  nofun

/-- A store at a write operand leaves every address but the operand's. -/
theorem TargetIs.get_set_ne {k m n n' : Nat} {p : Param} (h : TargetIs c s p n) (hn' : writeTarget c k p s = .ok n') (hm : m ≠ n')
    (v : Word) : (s.mem.set n v).get m = s.mem.get m := by
  obtain rfl := h.unique (writeTarget_eq_ok_iff.1 hn')
  exact Memory.get_set_ne _ v hm

/-- Settles O32: the shared shape stores one word at its write operand, or takes a fault. -/
theorem frameOfTernary : Obligations.FrameOfTernary := by
  intro a b dst i s t hi h
  rw [exec_eq_answer] at h
  cases h
  obtain ⟨f, hexec⟩ := execUnder_eq_ternary (c := Config.hardware) (s := s) hi
  rw [hexec]
  obtain ⟨x, y, n, v, -, -, hn, -, e⟩ | ⟨r, -, e⟩ := ternary_cases Config.hardware s f a b dst
  · rw [e]
    exact ⟨rfl, rfl, rfl, rfl, rfl, .inl rfl, fun n' hn' m hm => hn.get_set_ne hn' hm v,
      fun r hr => absurd hr hn.writeTarget_ne_error⟩
  · rw [e]
    exact ⟨rfl, rfl, rfl, rfl, rfl, .inr ⟨rfl, rfl, rfl⟩, fun _ _ _ _ => rfl, fun _ _ _ => rfl⟩

/-- Settles O33: IN stores the FIFO's head at its write operand, suspends, or takes its write operand's fault. -/
theorem frameOfInput : Obligations.FrameOfInput := by
  intro dst s t h
  rw [exec_eq_answer, execUnder_inp] at h
  cases h
  obtain ⟨n, v, rest, hn, hq, e⟩ | ⟨n, hn, hq, e⟩ | ⟨r, hr, e⟩ := inpUnder_cases Config.hardware s dst
  · rw [e]
    have hne : s.inFifo ≠ [] := by simp [hq]
    exact ⟨rfl, rfl, rfl, .inl rfl, fun hnil => absurd hnil hne, fun n' hn' => ⟨rfl, fun m hm => hn.get_set_ne hn' hm v⟩,
      fun r hr => absurd hr hn.writeTarget_ne_error⟩
  · rw [e]
    exact ⟨rfl, rfl, rfl, .inl rfl, fun _ => ⟨rfl, hq, rfl, rfl⟩, fun _ _ => ⟨rfl, fun _ _ => rfl⟩,
      fun r hr => absurd hr hn.writeTarget_ne_error⟩
  · rw [e]
    exact ⟨rfl, rfl, rfl, .inr ⟨rfl, rfl, rfl⟩, fun hq => ⟨rfl, hq, rfl, rfl⟩,
      fun n hn => absurd (writeTarget_eq_error_iff.2 hr) (writeTarget_eq_ok_iff.1 hn).writeTarget_ne_error,
      fun _ _ => ⟨rfl, rfl, rfl, rfl⟩⟩

/-- What OUT, JT, JF, ARB or HALT may write beside `pc` and the extent: at most one field, its own. -/
inductive WritesOwnField (s : State) : Instr → State → Prop
  | none {i : Instr} : WritesOwnField s i s
  | log {a : Param} {x : Word} : WritesOwnField s (.out a) (s.appendOut x)
  | base {a : Param} {v : Word} : WritesOwnField s (.arb a) (s.setRb v)
  | flag : WritesOwnField s .halt s.setHalted

/-- JT and JF write nothing beside `pc` and the extent, or take a fault. -/
theorem jumpWhen_writes (c : Config) (s : State) (taken : Int → Bool) (a b : Param) :
    (∃ r pc', jumpWhen c taken a b s = (r, commit s [a, b] pc' s)) ∨ ∃ r, jumpWhen c taken a b s = takeFault c s r := by
  obtain ⟨x, y, -, -, -, -, e⟩ | ⟨x, y, -, -, -, e⟩ | ⟨r, -, e⟩ := jumpWhen_cases c s taken a b
  · exact .inl ⟨_, _, e⟩
  · exact .inl ⟨_, _, e⟩
  · exact .inr ⟨r, e⟩

/-- OUT, JT, JF, ARB and HALT commit a write of their own field at most, or take a fault. -/
theorem execUnder_writesOwnField {a b : Param} (hi : i = .out a ∨ i = .jt a b ∨ i = .jf a b ∨ i = .arb a ∨ i = .halt) :
    (∃ r pc' w, execUnder c i s = (r, commit s i.params pc' w) ∧ WritesOwnField s i w) ∨
    ∃ r, execUnder c i s = takeFault c s r := by
  obtain rfl | rfl | rfl | rfl | rfl := hi
  · obtain ⟨x, -, -, e⟩ | ⟨r, -, e⟩ := outUnder_cases c s a
    · exact .inl ⟨_, _, _, e, .log⟩
    · exact .inr ⟨r, e⟩
  · obtain ⟨r, pc', e⟩ | h := jumpWhen_writes c s (fun x => decide (x ≠ 0)) a b
    · exact .inl ⟨r, pc', s, e, .none⟩
    · exact .inr h
  · obtain ⟨r, pc', e⟩ | h := jumpWhen_writes c s (fun x => decide (x = 0)) a b
    · exact .inl ⟨r, pc', s, e, .none⟩
    · exact .inr h
  · obtain ⟨x, v, -, -, e⟩ | ⟨r, -, e⟩ := arbUnder_cases c s a
    · exact .inl ⟨_, _, _, e, .base⟩
    · exact .inr ⟨r, e⟩
  · exact .inl ⟨_, _, _, rfl, .flag⟩

/-- Settles O34: the one field an instruction may write is none of those it must leave, and a fault leaves them all. -/
theorem frameOfNonStoring : Obligations.FrameOfNonStoring := by
  intro a b i s t hi h
  rw [exec_eq_answer] at h
  cases h
  obtain ⟨r, pc', w, e, hw⟩ | ⟨r, e⟩ := execUnder_writesOwnField (c := Config.hardware) (s := s) hi
  · rw [e]
    cases hw with
    | none => exact ⟨fun _ => rfl, rfl, rfl, fun _ => rfl, fun _ => rfl, fun _ => rfl, .inl rfl⟩
    | log =>
      have ha := hi.resolve_right (by simp)
      exact ⟨fun _ => rfl, rfl, rfl, fun hne => absurd ha hne, fun _ => rfl, fun _ => rfl, .inl rfl⟩
    | @base a' v =>
      have ha : Instr.arb a' = .arb a := by simpa using hi
      exact ⟨fun _ => rfl, rfl, rfl, fun _ => rfl, fun hne => absurd ha hne, fun _ => rfl, .inl rfl⟩
    | flag => exact ⟨fun _ => rfl, rfl, rfl, fun _ => rfl, fun _ => rfl, fun hne => absurd rfl hne, .inl rfl⟩
  · rw [e]
    exact ⟨fun _ => rfl, rfl, rfl, fun _ => rfl, fun _ => rfl, fun _ => rfl, .inr ⟨rfl, rfl, rfl, rfl, rfl⟩⟩

end Sys2Proof.Machine
end

section
/-! SUPPORT. Suspending on an empty FIFO, resuming with what is fed, and feeding before a step or after it (spec/40_controller.md R114, R119,
R120). -/

namespace Sys2Proof.Machine

variable {c : Config} {s t : State} {i : Instr}

/-- A stopped core's step result is Halted or Faulted (R100). -/
theorem stoppedResult_ne_awaitingInput : stoppedResult s ≠ some .awaitingInput := by
  unfold stoppedResult
  cases s.fault with
  | some r => simp
  | none => cases s.halted <;> simp

/-- A step that answers AwaitingInput fetched an IN, on an empty FIFO. -/
theorem fetchInstr_of_awaitingInput (h : (stepUnder c s).1 = .awaitingInput) :
    stoppedResult s = none ∧ s.inFifo = [] ∧ ∃ d, fetchInstr c s = .ok (.inp d) := by
  have hsteps := stepUnder_steps c s
  generalize stepUnder c s = o at h hsteps
  cases hsteps with
  | stays hs => exact absurd (hs.trans (congrArg some h)) stoppedResult_ne_awaitingInput
  | faults => simp [takeFault] at h
  | suspends hs hf hq => exact ⟨hs, hq, _, hf⟩
  | commits _ _ hc => obtain ⟨rfl, -⟩ | ⟨rfl, -⟩ := hc.halted_cases <;> simp at h

/-- IN answers AwaitingInput only where its write operand is a cell (R205). -/
theorem targetIs_of_awaitingInput {d : Param} (h : (inpUnder c d s).1 = .awaitingInput) : ∃ n, TargetIs c s d n := by
  obtain ⟨n, v, rest, hn, -, -⟩ | ⟨n, hn, -, -⟩ | ⟨r, -, e⟩ := inpUnder_cases c s d
  · exact ⟨n, hn⟩
  · exact ⟨n, hn⟩
  · simp [e, takeFault] at h

/-- FEED appends where the FIFO has room (R228). -/
theorem feed_eq_ok_iff {v : Word} :
    feed c v s = .ok t ↔ Config.full c.inCap s.inFifo.length = false ∧ t = s.setFifo (s.inFifo ++ [v]) := by
  unfold feed
  cases Config.full c.inCap s.inFifo.length <;> simp [eq_comm]

/-- Settles O44: the extent and the FIFO bear neither on the fetch nor on the write operand, so the suspended IN is fetched again, and
suspends or consumes the value fed. -/
theorem suspensionResumes : Obligations.SuspensionResumes := by
  intro c s h
  obtain ⟨hs, hq, d, hf⟩ := fetchInstr_of_awaitingInput h
  have hinp : stepUnder c s = inpUnder c d s := stepUnder_of_fetchInstr_ok hs hf
  obtain ⟨n, hn⟩ := targetIs_of_awaitingInput (hinp ▸ h)
  rw [hinp, inpUnder_suspends hn hq]
  intro t
  refine ⟨?_, fun v u hu => ?_⟩
  · have hstep : stepUnder c t = suspend t :=
      (stepUnder_of_fetchInstr_ok (s := t) hs hf).trans (inpUnder_suspends (s := t) hn hq)
    rw [hstep]
    rfl
  · obtain ⟨-, rfl⟩ := feed_eq_ok_iff.1 hu
    have hfed : (t.setFifo (t.inFifo ++ [v])).inFifo = v :: [] := congrArg (· ++ [v]) hq
    have hstep := (stepUnder_of_fetchInstr_ok (s := t.setFifo (t.inFifo ++ [v])) hs hf).trans (inpUnder_commits hn hfed)
    rw [hstep]
    exact ⟨d, n, hf, hn, rfl, rfl, rfl, rfl, rfl⟩

/-- The shape of ADD, MUL, LT and EQ leaves the FIFO and, unless it faults, does the same with any other. -/
theorem ternary_setFifo {f : Int → Int → Except Raise Word} {a b d : Param} {r : StepResult} (q : List Word)
    (h : ternary c f a b d s = (r, t)) (hr : r = .running ∨ r = .halted) :
    t.inFifo = s.inFifo ∧ ternary c f a b d (s.setFifo q) = (r, t.setFifo q) := by
  obtain ⟨x, y, n, v, ha, hb, hn, hv, e⟩ | ⟨r', -, e⟩ := ternary_cases c s f a b d
  · cases e.symm.trans h
    exact ⟨rfl, ternary_commits (s := s.setFifo q) ha hb hn hv⟩
  · cases e.symm.trans h
    simp at hr

/-- JT and JF leave the FIFO and, unless they fault, do the same with any other. -/
theorem jumpWhen_setFifo {taken : Int → Bool} {a b : Param} {r : StepResult} (q : List Word)
    (h : jumpWhen c taken a b s = (r, t)) (hr : r = .running ∨ r = .halted) :
    t.inFifo = s.inFifo ∧ jumpWhen c taken a b (s.setFifo q) = (r, t.setFifo q) := by
  obtain ⟨x, y, ha, hb, ht, hy, e⟩ | ⟨x, y, ha, hb, ht, e⟩ | ⟨r', -, e⟩ := jumpWhen_cases c s taken a b
  · cases e.symm.trans h
    exact ⟨rfl, jumpWhen_taken (s := s.setFifo q) ha hb ht hy⟩
  · cases e.symm.trans h
    exact ⟨rfl, jumpWhen_falls (s := s.setFifo q) ha hb ht⟩
  · cases e.symm.trans h
    simp at hr

/-- An instruction other than IN leaves the FIFO and, unless it faults, does the same with any other. -/
theorem execUnder_setFifo {r : StepResult} (q : List Word) (hi : ∀ d, i ≠ .inp d) (h : execUnder c i s = (r, t))
    (hr : r = .running ∨ r = .halted) : t.inFifo = s.inFifo ∧ execUnder c i (s.setFifo q) = (r, t.setFifo q) := by
  cases i with
  | add | mul | lt | eq =>
    simp only [execUnder_add, execUnder_mul, execUnder_lt, execUnder_eq] at h ⊢
    exact ternary_setFifo q h hr
  | jt | jf =>
    simp only [execUnder_jt, execUnder_jf] at h ⊢
    exact jumpWhen_setFifo q h hr
  | inp d => exact absurd rfl (hi d)
  | out a =>
    rw [execUnder_out] at h
    obtain ⟨x, ha, hroom, e⟩ | ⟨r', -, e⟩ := outUnder_cases c s a
    · cases e.symm.trans h
      exact ⟨rfl, outUnder_commits (s := s.setFifo q) ha hroom⟩
    · cases e.symm.trans h
      simp at hr
  | arb a =>
    rw [execUnder_arb] at h
    obtain ⟨x, v, ha, hv, e⟩ | ⟨r', -, e⟩ := arbUnder_cases c s a
    · cases e.symm.trans h
      exact ⟨rfl, arbUnder_commits (s := s.setFifo q) ha hv⟩
    · cases e.symm.trans h
      simp at hr
  | halt =>
    cases h
    exact ⟨rfl, rfl⟩

/-- An IN that consumes the head of the FIFO leaves what is fed behind it. -/
theorem inpUnder_feed {d : Param} {r : StepResult} (vs : List Word) (h : inpUnder c d s = (r, t))
    (hr : r = .running ∨ r = .halted) : inpUnder c d (s.setFifo (s.inFifo ++ vs)) = (r, t.setFifo (t.inFifo ++ vs)) := by
  obtain ⟨n, v, rest, hn, hq, e⟩ | ⟨n, -, -, e⟩ | ⟨r', -, e⟩ := inpUnder_cases c s d
  · cases e.symm.trans h
    have hq' : (s.setFifo (s.inFifo ++ vs)).inFifo = v :: (rest ++ vs) := congrArg (· ++ vs) hq
    exact inpUnder_commits hn hq'
  · cases e.symm.trans h
    simp at hr
  · cases e.symm.trans h
    simp at hr

/-- Feeding before an instruction that neither suspends nor faults is feeding after it. -/
theorem execUnder_feed {r : StepResult} (vs : List Word) (h : execUnder c i s = (r, t)) (hr : r = .running ∨ r = .halted) :
    execUnder c i (s.setFifo (s.inFifo ++ vs)) = (r, t.setFifo (t.inFifo ++ vs)) := by
  by_cases hi : ∃ d, i = .inp d
  · obtain ⟨d, rfl⟩ := hi
    exact inpUnder_feed vs h hr
  · obtain ⟨hq, e⟩ := execUnder_setFifo (s.inFifo ++ vs) (not_exists.1 hi) h hr
    rw [e, hq]

/-- A step of a stopped core answers what it stopped with and changes nothing (R100). -/
theorem stepUnder_of_stoppedResult {r : StepResult} (h : stoppedResult s = some r) : stepUnder c s = (r, s) := by
  simp only [stepUnder, h]

/-- Settles O45: the FIFO bears neither on the flags nor on the fetch, and what is executed commutes with feeding. -/
theorem feedCommutesWithStep : Obligations.FeedCommutesWithStep := by
  intro c s t r vs h hr
  obtain ⟨r', hs, e⟩ | ⟨hs, r', -, e⟩ | ⟨hs, i, hf, e⟩ := stepUnder_cases c s
  · cases e.symm.trans h
    exact stepUnder_of_stoppedResult (s := s.setFifo (s.inFifo ++ vs)) hs
  · cases e.symm.trans h
    simp at hr
  · exact (stepUnder_of_fetchInstr_ok (s := s.setFifo (s.inFifo ++ vs)) hs hf).trans (execUnder_feed vs (e.symm.trans h) hr)

end Sys2Proof.Machine
end

section
/-! SUPPORT. A Relative parameter and the Position parameter of its address (spec/40_controller.md R106; spec/45_relbase.md R181). -/

namespace Sys2Proof.Machine

variable {c : Config} {s : State} {p : Param}

/-- The Position parameter names the Relative one's address, where that is a word's value. -/
theorem paramAddr_rebase (h : Rebasable s p) : paramAddr s (Param.rebase s p) = paramAddr s p := by
  obtain ⟨m, w⟩ := p
  cases m with
  | position | immediate => rfl
  | relative => exact congrArg some (toInt_ofInt_of_fits (h rfl))

/-- Reading either gives the same value or raises the same fault. -/
theorem readOperand_rebase {k : Nat} (h : Rebasable s p) : readOperand c k (Param.rebase s p) s = readOperand c k p s := by
  obtain ⟨m, w⟩ := p
  cases m with
  | position | immediate => rfl
  | relative => rw [readOperand_of_paramAddr (paramAddr_rebase h), readOperand_of_paramAddr rfl]

/-- Both are the same write operand, or raise the same fault. -/
theorem writeTarget_rebase {k : Nat} (h : Rebasable s p) : writeTarget c k (Param.rebase s p) s = writeTarget c k p s := by
  simp only [writeTarget, paramAddr_rebase h]

/-- A commit accounts for the same cells. -/
theorem commit_rebase {ps : List Param} (h : ∀ p ∈ ps, Rebasable s p) (n : Nat) (w : State) :
    commit s (ps.map (Param.rebase s)) n w = commit s ps n w := by
  have haddr : (ps.map (Param.rebase s)).filterMap (paramAddr s) = ps.filterMap (paramAddr s) := by
    rw [List.filterMap_map]
    exact List.filterMap_congr fun p hp => paramAddr_rebase (h p hp)
  rw [commit, commit, extentAfter, extentAfter, haddr, List.length_map]

/-- The shape of ADD, MUL, LT and EQ does the same with either. -/
theorem ternary_rebase {f : Int → Int → Except Raise Word} {a b d : Param} (h : ∀ p ∈ [a, b, d], Rebasable s p) :
    ternary c f (Param.rebase s a) (Param.rebase s b) (Param.rebase s d) s = ternary c f a b d s := by
  have hcommit : ∀ n w, commit s [Param.rebase s a, Param.rebase s b, Param.rebase s d] n w = commit s [a, b, d] n w := commit_rebase h
  simp only [ternary, readOperand_rebase (h a (by simp)), readOperand_rebase (h b (by simp)), writeTarget_rebase (h d (by simp)),
    hcommit]

/-- JT and JF do the same with either. -/
theorem jumpWhen_rebase {taken : Int → Bool} {a b : Param} (h : ∀ p ∈ [a, b], Rebasable s p) :
    jumpWhen c taken (Param.rebase s a) (Param.rebase s b) s = jumpWhen c taken a b s := by
  have hcommit : ∀ n w, commit s [Param.rebase s a, Param.rebase s b] n w = commit s [a, b] n w := commit_rebase h
  simp only [jumpWhen, readOperand_rebase (h a (by simp)), readOperand_rebase (h b (by simp)), hcommit]

/-- Settles O46: every use an instruction makes of a parameter, its value, its cell and its part in the extent, is through its address. -/
theorem relativeAgreesWithPosition : Obligations.RelativeAgreesWithPosition := by
  intro c i s h
  cases i with
  | add | mul | lt | eq =>
    simp only [rebase, execUnder_add, execUnder_mul, execUnder_lt, execUnder_eq]
    exact ternary_rebase h
  | jt | jf =>
    simp only [rebase, execUnder_jt, execUnder_jf]
    exact jumpWhen_rebase h
  | inp d =>
    have hcommit : ∀ n w, commit s [Param.rebase s d] n w = commit s [d] n w := commit_rebase h
    simp only [rebase, execUnder_inp, inpUnder, writeTarget_rebase (h d List.mem_cons_self), hcommit]
  | out a =>
    have hcommit : ∀ n w, commit s [Param.rebase s a] n w = commit s [a] n w := commit_rebase h
    simp only [rebase, execUnder_out, outUnder, readOperand_rebase (h a List.mem_cons_self), hcommit]
  | arb a =>
    have hcommit : ∀ n w, commit s [Param.rebase s a] n w = commit s [a] n w := commit_rebase h
    simp only [rebase, execUnder_arb, arbUnder, readOperand_rebase (h a List.mem_cons_self), hcommit]
  | halt => rfl

end Sys2Proof.Machine
end

section
/-! SUPPORT. The loops of RUN and RUN_TO_OUTPUT, one equation for each way a step can end or continue them (spec/40_controller.md R116 to
R118), and the commands that perform them (spec/60_exceptions.md R222 to R224). -/

namespace Sys2Proof.Machine

variable {c : Config} {s t : State} {fuel : Nat}

/-! ### RUN -/

/-- A step that is not Running ends RUN. -/
theorem run_of_ne_running {r : StepResult} (h : stepUnder c s = (r, t)) (hr : r ≠ .running) : run c (fuel + 1) s = some (r, t) := by
  cases r with
  | running => exact absurd rfl hr
  | awaitingInput | halted | faulted => simp only [run, h]

/-- A Running step is followed by the next. -/
theorem run_of_running (h : stepUnder c s = (.running, t)) : run c (fuel + 1) s = run c fuel t := by
  simp only [run, h]

/-- RUN never returns Running. -/
theorem run_ne_running {r : StepResult} (h : run c fuel s = some (r, t)) : r ≠ .running := by
  induction fuel generalizing s with
  | zero => cases h
  | succ fuel ih =>
    rcases hstep : stepUnder c s with ⟨r', t'⟩
    by_cases hr : r' = .running
    · subst hr
      exact ih (run_of_running hstep ▸ h)
    · cases (run_of_ne_running hstep hr).symm.trans h
      exact hr

/-- What RUN returns it returns with more fuel. -/
theorem run_add {n : Nat} {x : StepResult × State} (k : Nat) (h : run c n s = some x) : run c (n + k) s = some x := by
  induction n generalizing s with
  | zero => cases h
  | succ n ih =>
    rcases hstep : stepUnder c s with ⟨r', t'⟩
    rw [Nat.succ_add]
    by_cases hr : r' = .running
    · subst hr
      rw [run_of_running hstep] at h ⊢
      exact ih h
    · rw [run_of_ne_running hstep hr] at h ⊢
      exact h

/-- Settles O47: the loop's two equations, and what follows of them by induction on the fuel. -/
theorem runStepsUntilStopped : Obligations.RunStepsUntilStopped := by
  intro c s
  exact ⟨fun r t h hr fuel => run_of_ne_running h hr, fun t h fuel => run_of_running h, fun fuel r t h => run_ne_running h⟩

/-! ### RUN_TO_OUTPUT -/

/-- A step that is not Running ends RUN_TO_OUTPUT. -/
theorem runToOutput_of_ne_running {r : StepResult} (h : stepUnder c s = (r, t)) (hr : r ≠ .running) :
    runToOutput c (fuel + 1) s = some (.result r, t) := by
  cases r with
  | running => exact absurd rfl hr
  | awaitingInput | halted | faulted => simp only [runToOutput, h]

/-- A Running step that appends a value ends RUN_TO_OUTPUT with it. -/
theorem runToOutput_of_append {v : Word} (h : stepUnder c s = (.running, t)) (hv : t.outLog = s.outLog ++ [v]) :
    runToOutput c (fuel + 1) s = some (.value v, t) := by
  simp [runToOutput, h, hv]

/-- A Running step that appends nothing is followed by the next. -/
theorem runToOutput_of_silent (h : stepUnder c s = (.running, t)) (hv : t.outLog = s.outLog) :
    runToOutput c (fuel + 1) s = runToOutput c fuel t := by
  simp [runToOutput, h, hv]

/-- A step does one of three things to RUN_TO_OUTPUT: it is not Running, and appends nothing; it is Running and appends one value; or it
is Running and appends nothing. -/
theorem stepUnder_output_cases (c : Config) (s : State) :
    (∃ r t, stepUnder c s = (r, t) ∧ r ≠ .running ∧ t.outLog = s.outLog) ∨
    (∃ v t, stepUnder c s = (.running, t) ∧ t.outLog = s.outLog ++ [v]) ∨
    ∃ t, stepUnder c s = (.running, t) ∧ t.outLog = s.outLog := by
  have h := stepUnder_steps c s
  generalize stepUnder c s = o at h ⊢
  cases h with
  | stays hs => exact .inl ⟨_, _, rfl, fun e => stoppedResult_ne_running (e ▸ hs), rfl⟩
  | faults | suspends => exact .inl ⟨_, _, rfl, nofun, rfl⟩
  | commits _ _ hc =>
    cases hc with
    | halt => exact .inl ⟨_, _, rfl, nofun, rfl⟩
    | output => exact .inr (.inl ⟨_, _, rfl, rfl⟩)
    | store | input | jump | fallThrough | rebase => exact .inr (.inr ⟨_, rfl, rfl⟩)

/-- RUN_TO_OUTPUT returns a value, and has appended just that one, or a result that is not Running, and has appended nothing. -/
theorem runToOutput_cases {x : Response} (h : runToOutput c fuel s = some (x, t)) :
    (∃ v, x = .value v ∧ t.outLog = s.outLog ++ [v]) ∨ ∃ r, x = .result r ∧ r ≠ .running ∧ t.outLog = s.outLog := by
  induction fuel generalizing s with
  | zero => cases h
  | succ fuel ih =>
    obtain ⟨r, t', hstep, hr, hlog⟩ | ⟨v, t', hstep, hlog⟩ | ⟨t', hstep, hlog⟩ := stepUnder_output_cases c s
    · cases (runToOutput_of_ne_running hstep hr).symm.trans h
      exact .inr ⟨r, rfl, hr, hlog⟩
    · cases (runToOutput_of_append hstep hlog).symm.trans h
      exact .inl ⟨v, rfl, hlog⟩
    · rw [← hlog]
      exact ih (runToOutput_of_silent hstep hlog ▸ h)

/-- What RUN_TO_OUTPUT returns it returns with more fuel. -/
theorem runToOutput_add {n : Nat} {x : Response × State} (k : Nat) (h : runToOutput c n s = some x) :
    runToOutput c (n + k) s = some x := by
  induction n generalizing s with
  | zero => cases h
  | succ n ih =>
    rw [Nat.succ_add]
    obtain ⟨r, t', hstep, hr, -⟩ | ⟨v, t', hstep, hlog⟩ | ⟨t', hstep, hlog⟩ := stepUnder_output_cases c s
    · rw [runToOutput_of_ne_running hstep hr] at h ⊢
      exact h
    · rw [runToOutput_of_append hstep hlog] at h ⊢
      exact h
    · rw [runToOutput_of_silent hstep hlog] at h ⊢
      exact ih h

/-- Settles O48: an answer stands with more fuel, so fuel that gives none has none below it. -/
theorem fuelOnlyBoundsRun : Obligations.FuelOnlyBoundsRun := by
  intro c s
  refine ⟨fun n k r t h => run_add k h, fun n k r t h => runToOutput_add k h, fun n hn m hm => ?_⟩
  cases hrun : run c m s with
  | none => rfl
  | some x =>
    have hmore := run_add (n - m) hrun
    rw [Nat.add_sub_cancel' hm, hn] at hmore
    cases hmore

/-- Settles O49: the loop's three equations, and the log's growth by induction on the fuel. -/
theorem runToOutputAppendsOne : Obligations.RunToOutputAppendsOne := by
  intro c s fuel
  refine ⟨fun r t h hr => runToOutput_of_ne_running h hr, fun t v h hv => runToOutput_of_append h hv,
    fun t h hv => runToOutput_of_silent h hv, fun v t h => ?_, fun r t h => ?_⟩
  · obtain ⟨_, ⟨⟩, hlog⟩ | ⟨_, ⟨⟩, -, -⟩ := runToOutput_cases h
    exact hlog
  · obtain ⟨_, ⟨⟩, -⟩ | ⟨_, ⟨⟩, hr, hlog⟩ := runToOutput_cases h
    exact ⟨hr, hlog⟩

/-! ### The commands -/

/-- What RUN_TO_OUTPUT returns is not the result Running, and a value it returns is the last of the log. -/
theorem runToOutput_response {x : Response} (h : runToOutput c fuel s = some (x, t)) :
    x ≠ .result .running ∧ ∀ v, x = .value v → t.outLog.getLast? = some v := by
  obtain ⟨v, rfl, hlog⟩ | ⟨r, rfl, hr, -⟩ := runToOutput_cases h
  · refine ⟨nofun, fun v' hv => ?_⟩
    rw [hlog, ← Response.value.inj hv, List.getLast?_concat]
  · exact ⟨fun e => hr (Response.result.inj e), nofun⟩

/-- Settles O60: the commands pair the loops' answers with the session, and the loops' answers are what the lemmas above say. -/
theorem executionCommandsRunTheCore : Obligations.ExecutionCommandsRunTheCore := by
  intro c fuel x
  refine ⟨rfl, fun r t h => ⟨?_, run_ne_running h⟩, fun h => ?_, fun r t h => ⟨?_, runToOutput_response h⟩, fun h => ?_⟩
  all_goals simp only [Session.command, h, Option.map_some, Option.map_none]

end Sys2Proof.Machine
end

section
/-! SUPPORT. A row's words by their decimal digits, as the decoder reads them (spec/30_encoding.md R71, R76, R80). -/

namespace Sys2Proof.Machine

variable {op : Nat} {ms : List Nat} {w : Word}

/-- A row's words have its opcode, also as their unsigned value. -/
theorem IsWord.toNat_mod (hw : IsWord op ms w) : w.toNat % 100 = op := by
  obtain ⟨hpos, hop, -⟩ := hw
  rw [toInt_eq_toNat_of_nonneg hpos] at hop
  omega

/-- A row's words have its mode digits, also in their unsigned value. -/
theorem IsWord.digit_toNat (hw : IsWord op ms w) {k : Nat} (hk : k < ms.length) : digit w.toNat (k + 2) = ms[k] := by
  obtain ⟨hpos, -, hdigits⟩ := hw
  have h := hdigits k hk
  rw [toInt_eq_toNat_of_nonneg hpos] at h
  exact_mod_cast h

/-- The words of a row with two read parameters and a write parameter decode to its header, or raise IllegalWriteTarget on an Immediate
write parameter. -/
theorem IsWord.decodeHeader_ternary {mk : Mode → Mode → Mode → Header} {a b d : Mode}
    (hw : IsWord op [a.toDigit, b.toDigit, d.toDigit] w) (hrow : ∀ v, v % 100 = op → decodeValue v = modesRRW mk v) :
    decodeHeader w = if d = .immediate then .error ⟨.illegalWriteTarget, some 3, none⟩ else .ok (mk a b d) := by
  have ha : digit w.toNat 2 = a.toDigit := hw.digit_toNat (k := 0) (by simp)
  have hb : digit w.toNat 3 = b.toDigit := hw.digit_toNat (k := 1) (by simp)
  have hd : digit w.toNat 4 = d.toDigit := hw.digit_toNat (k := 2) (by simp)
  rw [decodeHeader_of_nonneg hw.1, hrow _ hw.toNat_mod]
  split
  next himm =>
    subst himm
    have hbefore (j : Nat) (h1 : 1 ≤ j) (h3 : j < 3) : digit w.toNat (j + 1) ≤ 2 := by
      obtain rfl | rfl : j = 1 ∨ j = 2 := by omega
      · exact ha ▸ a.toDigit_le
      · exact hb ▸ b.toDigit_le
    exact (ReadsModes.ternary mk).eq_error ⟨3, by omega, le_rfl, hbefore, .inr ⟨rfl, hd, rfl⟩⟩
  next hne => exact modesRRW_eq_ok_iff.2 ⟨a, b, d, ha, hb, hd, hne, rfl⟩

end Sys2Proof.Machine
end

section
/-! SUPPORT. ADD and MUL (spec/41_arithmetic.md R140, R141): what an instruction of the shape they share with LT and EQ stores, and the
faults it takes. -/

namespace Sys2Proof.Machine

variable {c : Config} {s t : State} {i : Instr} {a b dst : Param} {x y : Word} {n : Nat}

/-- What the hardware's meaning of an instruction answers is the state its execution leaves there. -/
theorem exec_of_execUnder {r : StepResult} (h : execUnder c i s = (r, t)) (hc : c = Config.hardware) : exec i s = .next t := by
  subst hc
  rw [exec_eq_answer, h, answer]

/-- An instruction of the shared shape whose operands resolve stores its result, and changes nothing else but the extent and `pc`
(R112). -/
theorem execUnder_ternary_stores {f : Int → Int → Except Raise Word} {r : Word} (hi : execUnder c i s = ternary c f a b dst s)
    (ha : ReadsAs c s a x) (hb : ReadsAs c s b y) (hd : TargetIs c s dst n) (hf : f x.toInt y.toInt = .ok r) :
    let t := { s with mem := s.mem.set n r, memLen := extentAfter s [a, b, dst], pc := s.pc + 4 }
    execUnder c i s = (.running, t) ∧ (c = Config.hardware → exec i s = .next t) :=
  have hstep := hi.trans (ternary_commits ha hb hd hf)
  ⟨hstep, exec_of_execUnder hstep⟩

/-- Where its operands resolve and the exact result does not fit, it takes Overflow under `OVF = fault` (R109). -/
theorem execUnder_ternary_overflows {g : Int → Int → Int}
    (hi : execUnder c i s = ternary c (fun u v => fit c (g u v)) a b dst s)
    (ha : ReadsAs c s a x) (hb : ReadsAs c s b y) (hd : TargetIs c s dst n)
    (hbig : ¬ fits64 (g x.toInt y.toInt)) (hovf : c.ovf = .fault) :
    execUnder c i s = takeFault c s ⟨.overflow, none, none⟩ :=
  hi.trans (ternary_faults (.inr (.inr ⟨x, y, n, ha, hb, hd, fit_eq_error_iff.2 ⟨hbig, hovf, rfl⟩⟩)))

/-- It takes the first resolution fault of its three parameters (R205 (5)). -/
theorem execUnder_ternary_fails {f : Int → Int → Except Raise Word} {r : Raise}
    (hi : execUnder c i s = ternary c f a b dst s) (h : TernaryFails c s a b dst r) : execUnder c i s = takeFault c s r :=
  hi.trans (ternary_faults (.inl h))

/-- Settles O20: ADD's words are a ternary row's, its execution is the shared shape with the checked sum, and the example runs. -/
theorem addRule : Obligations.AddRule := by
  refine ⟨fun w a b d hw => hw.decodeHeader_ternary fun v e => by simp only [decodeValue, e], fun c s a b dst => ?_, _, rfl, rfl⟩
  have hadd := execUnder_add (c := c) (s := s) a b dst
  exact ⟨fun x y n r ha hb hd hr => execUnder_ternary_stores hadd ha hb hd (fit_eq_ok_iff.2 hr),
    fun x y n => execUnder_ternary_overflows hadd, fun r => execUnder_ternary_fails hadd⟩

/-- Settles O21: MUL's words are a ternary row's, its execution is the shared shape with the checked product, and the example runs. -/
theorem mulRule : Obligations.MulRule := by
  refine ⟨fun w a b d hw => hw.decodeHeader_ternary fun v e => by simp only [decodeValue, e], fun c s a b dst => ?_, _, rfl, rfl⟩
  have hmul := execUnder_mul (c := c) (s := s) a b dst
  exact ⟨fun x y n r ha hb hd hr => execUnder_ternary_stores hmul ha hb hd (fit_eq_ok_iff.2 hr),
    fun x y n => execUnder_ternary_overflows hmul, fun r => execUnder_ternary_fails hmul⟩

end Sys2Proof.Machine
end

section
/-! SUPPORT. IN and OUT (spec/42_io.md R150 to R152): an IN suspends only on an empty FIFO and faults first, and an OUT faults on a full
log. -/

namespace Sys2Proof.Machine

variable {c : Config} {s : State} {i : Instr}

/-- Only an IN on an empty FIFO suspends (R151). -/
theorem inFifo_eq_nil_of_execUnder_awaitingInput (h : (execUnder c i s).1 = .awaitingInput) :
    s.inFifo = [] ∧ ∃ dst, i = .inp dst := by
  obtain ⟨r, w, n, e, -, -, -, hr⟩ | ⟨hi, hq, -⟩ | ⟨r, e⟩ := execUnder_shape c i s
  · obtain rfl : r = .awaitingInput := by rwa [e] at h
    obtain ⟨hrun, -⟩ | ⟨hhalt, -⟩ := hr
    · cases hrun
    · cases hhalt
  · exact ⟨hq, hi⟩
  · rw [e] at h
    cases h

/-- Settles O24: a target and a value waiting are all IN needs to commit, and the example runs. -/
theorem inputConsumesHead : Obligations.InputConsumesHead := by
  refine ⟨fun c s dst n v rest hd hq => ?_, _, rfl, rfl, rfl, rfl, rfl, rfl⟩
  have hinp := (execUnder_inp dst).trans (inpUnder_commits hd hq)
  exact ⟨hinp, exec_of_execUnder hinp⟩

/-- Settles O25: IN with a target suspends on an empty FIFO, and nothing else suspends. -/
theorem inputSuspendsOnEmpty : Obligations.InputSuspendsOnEmpty := by
  refine ⟨fun c s dst n hd hq => ?_, fun c s i => inFifo_eq_nil_of_execUnder_awaitingInput⟩
  have hinp : execUnder c (.inp dst) s = suspend s := (execUnder_inp dst).trans (inpUnder_suspends hd hq)
  rw [hinp]
  exact ⟨rfl, suspend_sameButExtent s, fun hc => ⟨_, exec_of_execUnder hinp hc, suspend_sameButExtent s⟩⟩

/-- Settles O26: mode digit 1 is the first bad one of IN's row, and the FIFO does not bear on how the write operand resolves. -/
theorem faultyInputNeverWaits : Obligations.FaultyInputNeverWaits := by
  refine ⟨fun w hw => ?_, fun c s dst r h => ?_⟩
  · have himm : digit w.toNat 2 = 1 := hw.digit_toNat (k := 0) (by simp)
    exact (firstBadModeFaults w hw.1 (3, 1, some 1) (by decide) hw.toNat_mod 1 le_rfl le_rfl (by omega)).2 rfl himm
  · have hempty : ResolveFails c { s with inFifo := [] } 1 dst r := h
    exact ⟨inpUnder_faults (.inl h), inpUnder_faults (.inl hempty)⟩

/-- Settles O27: OUT commits where its operand reads and the log has room, a full log or an unresolved operand is its fault, and the
examples run. -/
theorem outputRule : Obligations.OutputRule := by
  refine ⟨fun c s a => ⟨fun x ha hroom => ?_, fun x k ha hcap hfull => ?_, fun r h => outUnder_faults (.inl h)⟩,
    ⟨_, rfl, rfl⟩, _, rfl, rfl⟩
  · have hout := (execUnder_out a).trans (outUnder_commits ha (full_eq_false_iff.2 hroom))
    exact ⟨hout, exec_of_execUnder hout⟩
  · exact outUnder_faults (.inr ⟨x, ha, full_eq_true_iff.2 ⟨k, hcap, hfull⟩, rfl⟩)

end Sys2Proof.Machine
end

section
/-! SUPPORT. JT and JF (spec/43_jumps.md R160 to R163): the words of a row with two read parameters, the four ways a jump ends, and the fetch
after a jump to a cell that reads 0. -/

namespace Sys2Proof.Machine

variable {c : Config} {s : State} {i : Instr} {a b : Param} {x y : Word} {taken : Int → Bool}

/-- The words of a row with two read parameters decode to its header. -/
theorem IsWord.decodeHeader_reads {op : Nat} {mk : Mode → Mode → Header} {m₁ m₂ : Mode} {w : Word}
    (hw : IsWord op [m₁.toDigit, m₂.toDigit] w) (hrow : ∀ v, v % 100 = op → decodeValue v = modesRR mk v) :
    decodeHeader w = .ok (mk m₁ m₂) := by
  rw [decodeHeader_of_nonneg hw.1, hrow _ hw.toNat_mod]
  exact modesRR_eq_ok_iff.2 ⟨m₁, m₂, hw.digit_toNat (k := 0) (by simp), hw.digit_toNat (k := 1) (by simp), rfl⟩

/-- A state that can step faults UnknownOpcode on an instruction word 0 (R79). -/
theorem stepUnder_of_zero_at_pc (hs : stoppedResult s = none) (hpc : s.pc < c.memLimit) (hzero : s.mem.get s.pc = 0) :
    stepUnder c s = takeFault c s ⟨.unknownOpcode, none, some 0⟩ := by
  have hword : wordAt s 0 = 0 := hzero
  exact stepUnder_of_fetchInstr_error hs (fetchInstr_of_decodeHeader_error hpc (by rw [hword]; rfl))

/-- A taken jump to a non-negative target changes only the extent and `pc`, and a target that reads 0 then faults at its fetch (R103, R160). -/
theorem execUnder_jump_taken (hi : execUnder c i s = jumpWhen c taken a b s) (ha : ReadsAs c s a x) (hb : ReadsAs c s b y)
    (ht : taken x.toInt = true) (hy : 0 ≤ y.toInt) :
    let t := { s with memLen := extentAfter s [a, b], pc := y.toInt.toNat }
    execUnder c i s = (.running, t) ∧ (c = Config.hardware → exec i s = .next t) ∧
    (s.halted = false → s.fault = none → y.toInt < c.memLimit → s.mem.get y.toInt.toNat = 0 →
      stepUnder c t = takeFault c t ⟨.unknownOpcode, none, some 0⟩) := by
  have hstep := hi.trans (jumpWhen_taken ha hb ht hy)
  refine ⟨hstep, exec_of_execUnder hstep, fun hh hfault hlim hzero => ?_⟩
  have hpc : y.toInt.toNat < c.memLimit := by omega
  exact stepUnder_of_zero_at_pc (stoppedResult_eq_none_iff.2 ⟨hh, hfault⟩) hpc hzero

/-- A jump that is not taken changes only the extent and `pc`, whatever its target. -/
theorem execUnder_jump_falls (hi : execUnder c i s = jumpWhen c taken a b s) (ha : ReadsAs c s a x) (hb : ReadsAs c s b y)
    (ht : taken x.toInt = false) :
    let t := { s with memLen := extentAfter s [a, b], pc := s.pc + 3 }
    execUnder c i s = (.running, t) ∧ (c = Config.hardware → exec i s = .next t) :=
  have hstep := hi.trans (jumpWhen_falls ha hb ht)
  ⟨hstep, exec_of_execUnder hstep⟩

/-- A taken jump to a negative target takes InvalidAddress for parameter 2 (R162). -/
theorem execUnder_jump_negative (hi : execUnder c i s = jumpWhen c taken a b s) (ha : ReadsAs c s a x) (hb : ReadsAs c s b y)
    (ht : taken x.toInt = true) (hy : y.toInt < 0) :
    execUnder c i s = takeFault c s ⟨.invalidAddress, some 2, some y.toInt⟩ :=
  hi.trans (jumpWhen_faults (.inr ⟨x, y, ha, hb, ht, hy, rfl⟩))

/-- A jump takes the first resolution fault of its operands, whether or not it would be taken (R205 (5)). -/
theorem execUnder_jump_fails {r : Raise} (hi : execUnder c i s = jumpWhen c taken a b s) (h : ReadsFail c s a b r) :
    execUnder c i s = takeFault c s r :=
  hi.trans (jumpWhen_faults (.inl h))

/-- Settles O28: JT's words are a two-read row's, its execution is the jump taken on a non-zero condition, and the example runs. -/
theorem jumpIfTrueRule : Obligations.JumpIfTrueRule := by
  refine ⟨fun w a b hw => hw.decodeHeader_reads fun v e => by simp only [decodeValue, e], fun c s a b => ?_, _, rfl, rfl⟩
  have hjt := execUnder_jt (c := c) (s := s) a b
  exact ⟨fun x y ha hb hx hy => execUnder_jump_taken hjt ha hb (decide_eq_true hx) hy,
    fun x y ha hb hx => execUnder_jump_falls hjt ha hb (decide_eq_false (not_not.2 hx)),
    fun x y ha hb hx hy => execUnder_jump_negative hjt ha hb (decide_eq_true hx) hy,
    fun r => execUnder_jump_fails hjt⟩

/-- Settles O29: JF's words are a two-read row's, its execution is the jump taken on a zero condition, and the example runs. -/
theorem jumpIfFalseRule : Obligations.JumpIfFalseRule := by
  refine ⟨fun w a b hw => hw.decodeHeader_reads fun v e => by simp only [decodeValue, e], fun c s a b => ?_, _, rfl, rfl⟩
  have hjf := execUnder_jf (c := c) (s := s) a b
  exact ⟨fun x y ha hb hx hy => execUnder_jump_taken hjf ha hb (decide_eq_true hx) hy,
    fun x y ha hb hx => execUnder_jump_falls hjf ha hb (decide_eq_false hx),
    fun x y ha hb hx hy => execUnder_jump_negative hjf ha hb (decide_eq_true hx) hy,
    fun r => execUnder_jump_fails hjf⟩

end Sys2Proof.Machine
end

section
/-! SUPPORT. LT and EQ (spec/44_compare.md R170, R171): the shape of ADD and MUL, where the stored result is a truth value and so always
fits. -/

namespace Sys2Proof.Machine

/-- The truth value of a proposition is exactly 1 or 0 (R170). -/
theorem truth_decide (p : Prop) [Decidable p] : truth (decide p) = if p then 1 else 0 := by simp only [truth, decide_eq_true_eq]

/-- Settles O22: LT's words are a ternary row's, its execution is the shared shape with the signed comparison, and the example runs. -/
theorem lessThanRule : Obligations.LessThanRule := by
  refine ⟨fun w a b d hw => hw.decodeHeader_ternary fun v e => by simp only [decodeValue, e], fun c s a b dst => ?_, _, rfl, rfl⟩
  have hlt := execUnder_lt (c := c) (s := s) a b dst
  exact ⟨fun x y n ha hb hd => execUnder_ternary_stores hlt ha hb hd (congrArg Except.ok (truth_decide (x.toInt < y.toInt))),
    fun r => execUnder_ternary_fails hlt⟩

/-- Settles O23: EQ's words are a ternary row's, its execution is the shared shape with equality of the signed values, which is equality
of the words, and the examples run. -/
theorem equalsRule : Obligations.EqualsRule := by
  refine ⟨fun w a b d hw => hw.decodeHeader_ternary fun v e => by simp only [decodeValue, e], fun c s a b dst => ?_,
    ⟨_, rfl, rfl⟩, _, rfl, rfl⟩
  have heq := execUnder_eq (c := c) (s := s) a b dst
  refine ⟨fun x y n ha hb hd => execUnder_ternary_stores heq ha hb hd ?_, fun r => execUnder_ternary_fails heq⟩
  simp only [truth_decide, BitVec.toInt_inj]

end Sys2Proof.Machine
end

section
/-! SUPPORT. ARB (spec/45_relbase.md R180): the words of a row with one read parameter, and the cell a Relative operand reads under the
moved base. -/

namespace Sys2Proof.Machine

variable {c : Config} {s : State}

/-- The words of a row with one read parameter decode to its header. -/
theorem IsWord.decodeHeader_read {op : Nat} {mk : Mode → Header} {m : Mode} {w : Word} (hw : IsWord op [m.toDigit] w)
    (hrow : ∀ v, v % 100 = op → decodeValue v = modesR mk v) : decodeHeader w = .ok (mk m) := by
  rw [decodeHeader_of_nonneg hw.1, hrow _ hw.toNat_mod]
  exact modesR_eq_ok_iff.2 ⟨m, hw.digit_toNat (k := 0) (by simp), rfl⟩

/-- A Relative operand reads the cell at the exact sum of the base and its word (R74, R105). -/
theorem readsAs_relative {w : Word} {n : Nat} (hsum : (n : Int) = s.rb.toInt + w.toInt) (hn : n < c.memLimit) :
    ReadsAs c s ⟨.relative, w⟩ (s.mem.get n) :=
  .inr ⟨n, .inr ⟨rfl, hsum⟩, hn, rfl⟩

/-- Settles O30: ARB's words are a one-read row's, ARB commits where its operand reads and the new base fits and otherwise takes its fault,
and with the example's new base `204,-34` reads cell 1985. -/
theorem adjustRelativeBaseRule : Obligations.AdjustRelativeBaseRule := by
  refine ⟨fun w a hw => hw.decodeHeader_read fun v e => by simp only [decodeValue, e], fun c s a => ⟨fun x r ha hfit => ?_,
    fun x ha hbig hovf => arbUnder_faults (.inr ⟨x, ha, hbig, hovf, rfl⟩), fun r h => arbUnder_faults (.inl h)⟩,
    ⟨_, rfl, rfl⟩, fun s hrb => ?_⟩
  · have harb := (execUnder_arb a).trans (arbUnder_commits ha hfit)
    exact ⟨harb, exec_of_execUnder harb⟩
  · have hread : ReadsAs Config.hardware s ⟨.relative, -34⟩ (s.mem.get 1985) :=
      readsAs_relative (by rw [hrb]; rfl) (by decide)
    exact ⟨_, outUnder_commits hread rfl, rfl⟩

end Sys2Proof.Machine
end

section
/-! SUPPORT. HALT and the halted instance (spec/46_halt.md R190, R191): the words of a row without parameters, the state HALT leaves, and
the step and the loops from a halted state. -/

namespace Sys2Proof.Machine

variable {c : Config} {s : State}

/-- The words of HALT's row decode to it, whatever their mode digits (R75). -/
theorem IsWord.decodeHeader_halt {w : Word} (hw : IsWord 99 [] w) : decodeHeader w = .ok .halt := by
  rw [decodeHeader_of_nonneg hw.1]
  exact decodeValue_eq_ok_iff.2 hw.toNat_mod

/-- HALT commits the halted flag, the next `pc` and the extent of its one word, in every state. -/
theorem execUnder_halt_commits (c : Config) (s : State) :
    execUnder c .halt s = (.halted, { s with memLen := max s.memLen (s.pc + 1), pc := s.pc + 1, halted := true }) := rfl

/-- An unfaulted halted instance steps to itself with Halted (R100). -/
theorem stepUnder_of_halted (hh : s.halted = true) (hfault : s.fault = none) : stepUnder c s = (.halted, s) :=
  stepUnder_of_stoppedResult (by simp only [stoppedResult, hfault, hh, if_true])

/-- Settles O31: HALT's words are those of a row without parameters, its execution commits in every state, and the state it leaves steps
to itself. -/
theorem haltRule : Obligations.HaltRule :=
  ⟨fun _ hw => hw.decodeHeader_halt,
    fun c s => ⟨execUnder_halt_commits c s, exec_of_execUnder (execUnder_halt_commits Config.hardware s) rfl,
      fun hfault => stepUnder_of_halted rfl hfault⟩,
    _, rfl, rfl, rfl, rfl⟩

/-- Settles O13: a halted state steps to itself with Halted, which ends either loop at its first step; a feed appends to the FIFO, and so
leaves the state halted. -/
theorem haltingIsIdempotent : Obligations.HaltingIsIdempotent := by
  intro c s hh hfault
  have hstep : stepUnder c s = (.halted, s) := stepUnder_of_halted hh hfault
  refine ⟨hstep, fun _ => run_of_ne_running hstep nofun, fun _ => runToOutput_of_ne_running hstep nofun, rfl, fun v t hfeed => ?_⟩
  obtain ⟨-, rfl⟩ := feed_eq_ok_iff.1 hfeed
  have hfed : stepUnder c (s.setFifo (s.inFifo ++ [v])) = (.halted, s.setFifo (s.inFifo ++ [v])) := stepUnder_of_halted hh hfault
  exact ⟨rfl, fun _ => run_of_ne_running hfed nofun⟩

end Sys2Proof.Machine
end

section
/-! SUPPORT. The fault a step takes and the faulted instance (spec/60_exceptions.md R200 to R205): fault entry, the record it leaves, and
what the step, the loops and the commands do from a faulted state. -/

namespace Sys2Proof.Machine

variable {c : Config} {s t : State} {r : FaultRecord}

/-- Settles O10: the entry writes the record and the extent, which `stoppedExtent` does not shrink. -/
theorem takingAFault : Obligations.TakingAFault := fun _ s _ => ⟨stoppedExtent s, Nat.le_add_right _ _, rfl⟩

/-- Settles O43: of the things a step does only taking a fault fills an empty fault register, and what a step raises is in R202's
table. -/
theorem faultRecordsFollowTheTable : Obligations.FaultRecordsFollowTheTable := by
  intro c s hfault r hr
  have h := stepUnder_steps c s
  generalize stepUnder c s = o at h hr ⊢
  cases h with
  | stays | suspends => exact absurd (hfault.symm.trans hr) nofun
  | faults hs hraise =>
    obtain rfl := Option.some.inj hr
    exact ⟨⟨rfl, rfl, hraise⟩, rfl, (stoppedResult_eq_none_iff.1 hs).1⟩
  | commits _ _ hc => exact absurd ((hc.fault_eq.trans hfault).symm.trans hr) nofun

/-- A faulted instance steps to itself with its code (R100, R204). -/
theorem stepUnder_of_faulted (h : s.fault = some r) : stepUnder c s = (.faulted r.code, s) :=
  stepUnder_of_stoppedResult (by simp only [stoppedResult, h])

/-- No command changes the fault register of a faulted instance. -/
theorem command_fault_of_faulted {fuel : Nat} {cmd : Command} {x y : Session} {reply : Reply} (h : x.core.fault = some r)
    (e : x.command c fuel cmd = some (reply, y)) : y.core.fault = some r := by
  have hstop : Stopped x.core := .inr (Option.isSome_of_eq_some h)
  obtain ⟨hcore, -⟩ := stoppedInstanceIsFrozen c fuel cmd x y reply hstop e
  rw [hcore]
  exact h

/-- A state LOAD gives is a loaded program's. -/
theorem loadText_eq_ok {text : List Char} (h : loadText c text = .ok t) : ∃ P, t = State.load P := by
  unfold loadText at h
  split at h
  next => cases h
  next P _ =>
    split at h
    · cases h
    · exact ⟨P, (Except.ok.inj h).symm⟩

/-- Settles O14: a faulted state steps to itself, which ends either loop at its first step; its commands are a stopped core's; and a
loaded program's state starts without a fault. -/
theorem faultIsFatal : Obligations.FaultIsFatal := by
  intro c s r h
  have hstep : stepUnder c s = (.faulted r.code, s) := stepUnder_of_faulted h
  refine ⟨hstep, ?_, fun _ => run_of_ne_running hstep nofun, fun _ => runToOutput_of_ne_running hstep nofun,
    fun _ _ _ _ _ _ e => command_fault_of_faulted h e, fun text t ht => ?_⟩
  · rw [step_eq_answer, stepUnder_of_faulted h]
    rfl
  · obtain ⟨P, rfl⟩ := loadText_eq_ok ht
    rfl

end Sys2Proof.Machine
end

section
/-! SUPPORT. The queue commands on each side of their bounds (spec/60_exceptions.md R228, R229, R232, R235): reading the log at an index,
feeding one value, and feeding a text as the values it stands for. -/

namespace Sys2Proof.Machine

variable {c : Config} {s : State} {text : List Char}

/-- OUT_READ of an entry of the log. -/
theorem outRead_of_lt {i : Int} (h : 0 ≤ i ∧ i < s.outLog.length) : outRead i s = .ok (s.outLog[i.toNat]'(by omega)) := by
  have hi : i.toNat < s.outLog.length := by omega
  simp only [outRead, if_neg (not_lt.2 h.1), List.getElem?_eq_getElem hi]

/-- OUT_READ outside the log. -/
theorem outRead_of_outside {i : Int} (h : i < 0 ∨ s.outLog.length ≤ i) : outRead i s = .error .badIndex := by
  by_cases hneg : i < 0
  · exact if_pos hneg
  · have hi : s.outLog.length ≤ i.toNat := by omega
    simp only [outRead, if_neg hneg, List.getElem?_eq_none hi]

/-- Settles O51: the index decides which of the two OUT_READ is. -/
theorem outputCommandsObserve : Obligations.OutputCommandsObserve := by
  refine fun c fuel x => ⟨rfl, rfl, fun i => ⟨fun h => ?_, fun h => ?_⟩⟩
  · rw [Session.command, outRead_of_lt h]
  · rw [Session.command, outRead_of_outside h]

/-- FEED into a FIFO with room for one more. -/
theorem feed_of_within {v : Word} (h : Within c.inCap (s.inFifo.length + 1)) : feed c v s = .ok (s.setFifo (s.inFifo ++ [v])) :=
  feed_eq_ok_iff.2 ⟨full_eq_false_iff.2 h, rfl⟩

/-- FEED into a full FIFO. -/
theorem feed_of_full {v : Word} {k : Nat} (hk : c.inCap = some k) (h : k ≤ s.inFifo.length) : feed c v s = .error .inputFull :=
  if_pos (full_eq_true_iff.2 ⟨k, hk, h⟩)

/-- Settles O52: the FIFO's room decides which of the two FEED is, and the query is an equality test. -/
theorem feedAndLastInput : Obligations.FeedAndLastInput := by
  refine fun c fuel x v => ⟨fun h => ?_, fun k hk h => ?_, _, rfl, decide_eq_true_iff⟩
  · rw [Session.command, feed_of_within h]
    rfl
  · rw [Session.command, feed_of_full hk h]
    rfl

/-- The values FEED_ASCII feeds for a text's characters (R235). -/
def charCodes (text : List Char) : List Word := text.map fun x => BitVec.ofNat 64 x.toNat

/-- A capacity that holds a number of entries holds fewer. -/
theorem Within.mono {cap : Option Nat} {m n : Nat} (h : Within cap n) (hmn : m ≤ n) : Within cap m := fun k hk => hmn.trans (h k hk)

/-- Feeding values one by one appends them all, where the FIFO has room for them all. -/
theorem foldlM_feed_of_within {vs : List Word} (h : Within c.inCap (s.inFifo.length + vs.length)) :
    vs.foldlM (fun t v => feed c v t) s = .ok (s.setFifo (s.inFifo ++ vs)) := by
  induction vs generalizing s with
  | nil => rw [List.append_nil]; rfl
  | cons v vs ih =>
    have hv : Within c.inCap (s.inFifo.length + 1) := h.mono (by simp)
    have hvs : Within c.inCap ((s.setFifo (s.inFifo ++ [v])).inFifo.length + vs.length) := h.mono (by simp; omega)
    rw [List.foldlM_cons, feed_of_within hv]
    refine (ih hvs).trans ?_
    rw [State.setFifo_inFifo, List.append_assoc]
    rfl

/-- A text with a character that is not ASCII is refused. -/
theorem feedAscii_of_nonAscii (h : ∃ x ∈ text, 127 < x.toNat) : feedAscii c text s = .error .nonAscii :=
  if_pos (by simpa using h)

/-- An ASCII text that with its newline exceeds the FIFO's room is refused. -/
theorem feedAscii_of_overfull {k : Nat} (ht : ∀ x ∈ text, x.toNat ≤ 127) (hk : c.inCap = some k)
    (h : k < s.inFifo.length + text.length + 1) : feedAscii c text s = .error .inputFull := by
  have hascii : (text.any fun x => decide (127 < x.toNat)) = false := by simpa using ht
  simp only [feedAscii, hascii, hk, decide_eq_false (not_le.2 h), Bool.false_eq_true, if_false]

/-- An ASCII text that fits with its newline is appended with it. -/
theorem feedAscii_of_within (ht : ∀ x ∈ text, x.toNat ≤ 127) (h : Within c.inCap (s.inFifo.length + text.length + 1)) :
    feedAscii c text s = .ok (s.setFifo (s.inFifo ++ charCodes text ++ [newline])) := by
  have hascii : (text.any fun x => decide (127 < x.toNat)) = false := by simpa using ht
  cases hcap : c.inCap with
  | none => simp only [feedAscii, hascii, hcap, Bool.false_eq_true, if_false, if_true, charCodes]
  | some k => simp only [feedAscii, hascii, hcap, decide_eq_true (h k hcap), Bool.false_eq_true, if_false, if_true, charCodes]

/-- Settles O53: the two refusals, and otherwise both ways append the same values. -/
theorem feedAsciiFeedsAllOrNothing : Obligations.FeedAsciiFeedsAllOrNothing := by
  refine fun c text s => ⟨feedAscii_of_nonAscii, fun ht => ⟨fun k hk h => feedAscii_of_overfull ht hk h, fun h => ?_⟩⟩
  have hroom : Within c.inCap (s.inFifo.length + (charCodes text ++ [newline]).length) := by
    simpa [charCodes, Within, add_assoc] using h
  rw [feedAscii_of_within ht h, List.append_assoc]
  exact (foldlM_feed_of_within hroom).symm

end Sys2Proof.Machine
end

section
/-! SUPPORT. REQUIRE_ASCII_LINE (spec/60_exceptions.md R237): the pending line as a piece of the log, the characters of its codes, and what
the loop can reply. -/

namespace Sys2Proof.Machine

variable {c : Config} {x y : Session}

/-- A pending line is the log's next piece up to its first newline. -/
theorem pendingLine_eq_some {seg : List Word} (h : pendingLine x = some seg) :
    newline ∉ seg ∧
      x.core.outLog.drop x.lineCursor = seg ++ newline :: x.core.outLog.drop (x.lineCursor + seg.length + 1) := by
  obtain ⟨hmem, hseg⟩ := ite_eq_iff.1 h |>.resolve_right nofun
  obtain ⟨as, bs, hlog, hnew⟩ := List.eq_append_cons_of_mem (List.contains_iff_mem.1 hmem)
  obtain rfl : as = seg := by
    have hkeep : ∀ v ∈ as, (v != newline) = true := fun v hv => by
      rw [bne_iff_ne]
      rintro rfl
      exact hnew hv
    rw [← Option.some.inj hseg, hlog, List.takeWhile_append_of_pos hkeep]
    simp
  refine ⟨hnew, ?_⟩
  rw [add_assoc, ← List.drop_drop, hlog]
  simp

/-- The character of an ASCII code has that code. -/
theorem toNat_ofNat_of_ascii {v : Word} (h : 0 ≤ v.toInt ∧ v.toInt ≤ 127) :
    (Char.ofNat v.toNat).toNat = v.toNat ∧ v.toNat ≤ 127 := by
  have hv : v.toNat ≤ 127 := by
    have hnat := toInt_eq_toNat_of_nonneg h.1
    omega
  exact ⟨(Char.toNat_ofNat _).trans (if_pos (.inl (by omega))), hv⟩

/-- The characters of ASCII codes have those codes. -/
theorem asciiLine_eq_some {vs : List Word} {text : List Char} (h : asciiLine vs = some text) :
    charCodes text = vs ∧ ∀ a ∈ text, a.toNat ≤ 127 := by
  obtain ⟨hall, htext⟩ := ite_eq_iff.1 h |>.resolve_right nofun
  obtain rfl := Option.some.inj htext
  have hcode : ∀ v ∈ vs, (Char.ofNat v.toNat).toNat = v.toNat ∧ v.toNat ≤ 127 := fun v hv =>
    toNat_ofNat_of_ascii (of_decide_eq_true (List.all_eq_true.1 hall v hv))
  constructor
  · rw [charCodes, List.map_map]
    refine (List.map_congr_left fun v hv => ?_).trans (List.map_id vs)
    rw [Function.comp_apply, (hcode v hv).1, BitVec.ofNat_toNat, BitVec.setWidth_eq, id]
  · intro a ha
    obtain ⟨v, hv, rfl⟩ := List.mem_map.1 ha
    obtain ⟨hval, hle⟩ := hcode v hv
    exact hval.trans_le hle

/-- REQUIRE_ASCII_LINE ends with a pending line of the log as it then stands, or with the step result that ended its loop; it keeps the
batch cursor. -/
theorem requireAsciiLine_cases {fuel rounds : Nat} {reply : Reply} (e : requireAsciiLine c fuel rounds x = some (reply, y)) :
    y.batchCursor = x.batchCursor ∧
    ((∃ seg, pendingLine { y with lineCursor := x.lineCursor } = some seg ∧ y.lineCursor = x.lineCursor + seg.length + 1 ∧
        ((∃ text, asciiLine seg = some text ∧ reply = .line text) ∨ reply = .error .nonAscii)) ∨
      ∃ r, reply = .stop r) := by
  induction rounds generalizing x with
  | zero => cases e
  | succ rounds ih =>
    unfold requireAsciiLine at e
    split at e
    next seg hseg =>
      cases hline : asciiLine seg with
      | none =>
        simp only [hline] at e
        cases e
        exact ⟨rfl, .inl ⟨seg, hseg, rfl, .inr rfl⟩⟩
      | some text =>
        simp only [hline] at e
        cases e
        exact ⟨rfl, .inl ⟨seg, hseg, rfl, .inl ⟨text, hline, rfl⟩⟩⟩
    next =>
      split at e
      next => cases e
      next t _ => exact ih (x := { x with core := t }) e
      next => cases e; exact ⟨rfl, .inr ⟨_, rfl⟩⟩

/-- Settles O54: a line returned is the pending line of the log at the end, and no code of it is a newline's. -/
theorem asciiLineIsNextInLog : Obligations.AsciiLineIsNextInLog := by
  intro c fuel rounds x y text e
  obtain ⟨hbatch, ⟨seg, hseg, hcursor, ⟨_, hline, ⟨⟩⟩ | ⟨⟨⟩⟩⟩ | ⟨_, ⟨⟩⟩⟩ := requireAsciiLine_cases e
  obtain ⟨hnew, hlog⟩ := pendingLine_eq_some hseg
  obtain ⟨rfl, hascii⟩ := asciiLine_eq_some hline
  refine ⟨?_, fun a ha => ⟨hascii a ha, fun h10 => hnew ?_⟩, hbatch⟩
  · rw [hcursor]
    exact hlog
  · exact List.mem_map.2 ⟨a, ha, by rw [h10]; rfl⟩

end Sys2Proof.Machine
end

section
/-! SUPPORT. READ_ADDR and WRITE_ADDR (spec/60_exceptions.md R231): the host's mode number, and each command as the memory access it
performs. -/

namespace Sys2Proof.Machine

variable {c : Config} {s : State} {p : Param} {a : Int}

/-- A mode's digit is its number. -/
theorem hostMode_toDigit (m : Mode) : hostMode m.toDigit = some m := by cases m <;> rfl

/-- A number outside 0 to 2 is no mode. -/
theorem hostMode_of_outside {mode : Int} (h : mode < 0 ∨ 3 ≤ mode) : hostMode mode = none := by
  by_cases hneg : mode < 0
  · exact if_pos hneg
  · exact (if_neg hneg).trans (Mode.ofDigit_eq_none_iff.2 (by omega))

/-- A host address that names `a` is read there. -/
theorem readAddr_of_names (h : Names s p a) :
    readAddr c p.word p.mode.toDigit s = (memRead c none a s).mapError hostErrorOf := by
  simp only [readAddr, hostMode_toDigit, paramAddr_eq_some_iff.2 h]

/-- An Immediate host address is its own value. -/
theorem readAddr_of_immediate (h : p.mode = .immediate) : readAddr c p.word p.mode.toDigit s = .ok (p.word, s) := by
  simp only [readAddr, hostMode_toDigit, paramAddr_eq_none_iff.2 h]

/-- A read in no mode. -/
theorem readAddr_of_outside {addr : Word} {mode : Int} (h : mode < 0 ∨ 3 ≤ mode) : readAddr c addr mode s = .error .illegalMode := by
  simp only [readAddr, hostMode_of_outside h]

/-- The flags WRITE_ADDR is refused by are those of a stopped instance. -/
theorem halted_or_fault_eq_false (h : ¬ Stopped s) : (s.halted || s.fault.isSome) = false := by
  simpa [Stopped] using h

/-- A host address that names `a` is written there. -/
theorem writeAddr_of_names (v : Word) (hrun : ¬ Stopped s) (h : Names s p a) :
    writeAddr c p.word v p.mode.toDigit s = (memWrite c none a v s).mapError hostErrorOf := by
  simp only [writeAddr, halted_or_fault_eq_false hrun, hostMode_toDigit, paramAddr_eq_some_iff.2 h, Bool.false_eq_true, if_false]

/-- An Immediate host address is no write target. -/
theorem writeAddr_of_immediate (v : Word) (hrun : ¬ Stopped s) (h : p.mode = .immediate) :
    writeAddr c p.word v p.mode.toDigit s = .error .illegalWriteTarget := by
  simp only [writeAddr, halted_or_fault_eq_false hrun, hostMode_toDigit, paramAddr_eq_none_iff.2 h, Bool.false_eq_true, if_false]

/-- A write in no mode. -/
theorem writeAddr_of_outside {addr v : Word} {mode : Int} (hrun : ¬ Stopped s) (h : mode < 0 ∨ 3 ≤ mode) :
    writeAddr c addr v mode s = .error .illegalMode := by
  simp only [writeAddr, halted_or_fault_eq_false hrun, hostMode_of_outside h, Bool.false_eq_true, if_false]

/-- An address at or above `MEM_LIMIT` is not negative, and so fails the check for its size (R51). -/
theorem checkAddr_of_beyond {k : Option Nat} (h : (c.memLimit : Int) ≤ a) :
    checkAddr c k a = .error ⟨.capacityExceeded, k, some a⟩ := checkAddr_of_memLimit_le ((Int.natCast_nonneg _).trans h) h

/-- Settles O55: each command is the access at the address named, whose check gives the two address errors. -/
theorem hostMemoryAccess : Obligations.HostMemoryAccess := by
  refine fun c s p v => ⟨fun _ h => readAddr_of_outside h, readAddr_of_immediate, fun a hn h => ?_, fun a hn h => ?_, fun n hn h => ?_,
    fun h _ => writeAddr_of_stopped _ _ _ h, fun hrun => ⟨fun _ h => writeAddr_of_outside hrun h, writeAddr_of_immediate v hrun,
      fun a hn h => ?_, fun a hn h => ?_, fun n hn h => ?_⟩⟩
  · rw [readAddr_of_names hn, memRead_of_checkAddr_error (checkAddr_of_neg h)]; rfl
  · rw [readAddr_of_names hn, memRead_of_checkAddr_error (checkAddr_of_beyond h)]; rfl
  · rw [readAddr_of_names hn, memRead_eq_ok_iff.2 ⟨n, rfl, h, rfl⟩]; rfl
  · rw [writeAddr_of_names v hrun hn, memWrite_of_checkAddr_error (checkAddr_of_neg h)]; rfl
  · rw [writeAddr_of_names v hrun hn, memWrite_of_checkAddr_error (checkAddr_of_beyond h)]; rfl
  · rw [writeAddr_of_names v hrun hn, memWrite_eq_ok_iff.2 ⟨n, rfl, h, rfl⟩]; rfl

end Sys2Proof.Machine
end

section
/-! SUPPORT. The response encoding (spec/60_exceptions.md R226): the ranges of the two numbers a status word packs, and which commands
reply with a response. -/

namespace Sys2Proof.Machine

variable {c : Config} {x y : Session} {r : Response}

/-- A kind is one of 0 to 4. -/
theorem Response.kind_le (r : Response) : r.kind ≤ 4 := by
  cases r with
  | result r => cases r <;> simp [Response.kind]
  | value v => exact le_rfl

/-- A fault's number is one of 1 to 6. -/
theorem FaultCode.number_bounds (f : FaultCode) : 1 ≤ f.number ∧ f.number ≤ 6 := by cases f <;> decide

/-- The code is a fault's number for Faulted, and 0 otherwise. -/
theorem Response.code_cases (r : Response) : (∃ f : FaultCode, r.kind = 3 ∧ r.code = f.number) ∨ (r.kind ≠ 3 ∧ r.code = 0) := by
  cases r with
  | result r =>
    cases r with
    | faulted f => exact .inl ⟨f, rfl, rfl⟩
    | running | awaitingInput | halted => exact .inr ⟨nofun, rfl⟩
  | value v => exact .inr ⟨nofun, rfl⟩

/-- Kind 0 is Running. -/
theorem Response.kind_eq_zero_iff : r.kind = 0 ↔ r = .result .running := by
  cases r with
  | result q => cases q <;> simp [Response.kind]
  | value v => exact ⟨nofun, nofun⟩

/-- Kind 4 is a value. -/
theorem Response.kind_eq_four_iff : r.kind = 4 ↔ ∃ v, r = .value v := by
  cases r with
  | result q => cases q <;> simp [Response.kind]
  | value v => exact ⟨fun _ => ⟨v, rfl⟩, fun _ => rfl⟩

/-- The status word is the kind and the code side by side. -/
theorem Response.status_eq (r : Response) : r.status = r.code * 16 + r.kind := by
  have hkind : r.kind < 2 ^ 4 := by have := r.kind_le; omega
  rw [Response.status, Nat.lor_comm, ← Nat.shiftLeft_add_eq_or_of_lt hkind, Nat.shiftLeft_eq]

/-- Only a value has a value word of its own. -/
theorem Response.word_eq_zero (h : r.kind ≠ 4) : r.word = 0 := by
  cases r with
  | result q => rfl
  | value v => exact absurd rfl h

/-- A command that updates the state replies with no response. -/
theorem update_ne_response (x : Session) (e : Except HostError State) : (x.update e).1 ≠ .response r := by cases e <;> nofun

/-- REQUIRE_ASCII_LINE replies with no response. -/
theorem requireAsciiLine_ne_response {fuel rounds : Nat} : requireAsciiLine c fuel rounds x ≠ some (.response r, y) := by
  intro e
  obtain ⟨-, ⟨seg, -, -, ⟨_, -, ⟨⟩⟩ | ⟨⟨⟩⟩⟩ | ⟨_, ⟨⟩⟩⟩ := requireAsciiLine_cases e

/-- REQUIRE_INPUT_BATCH replies with no response. -/
theorem requireInputBatch_ne_response {fuel : Nat} : requireInputBatch c fuel x ≠ some (.response r, y) := by
  unfold requireInputBatch
  split <;> nofun

/-- Only the execution commands reply with a response: STEP with a step result, RUN with one other than Running, and RUN_TO_OUTPUT with
one other than Running or with a value. -/
theorem command_response_cases {fuel : Nat} {cmd : Command} (e : x.command c fuel cmd = some (.response r, y)) :
    (cmd = .step ∧ ∃ q, r = .result q) ∨ (cmd = .run ∧ ∃ q, r = .result q ∧ q ≠ .running) ∨
      (cmd = .runToOutput ∧ r ≠ .result .running) := by
  cases cmd with
  | step => cases e; exact .inl ⟨rfl, _, rfl⟩
  | run =>
    obtain ⟨⟨q, t⟩, hrun, he⟩ := Option.map_eq_some_iff.1 e
    cases he
    exact .inr (.inl ⟨rfl, q, rfl, run_ne_running hrun⟩)
  | runToOutput =>
    obtain ⟨⟨q, t⟩, hrun, he⟩ := Option.map_eq_some_iff.1 e
    cases he
    exact .inr (.inr ⟨rfl, (runToOutput_response hrun).1⟩)
  | outputs | outLen | lastInputWas | snapshot => cases e
  | feed | writeAddr | feedAscii => exact absurd (congrArg Prod.fst (Option.some.inj e)) (update_ne_response _ _)
  | outRead i =>
    simp only [Session.command] at e
    split at e <;> cases e
  | readAddr addr mode =>
    simp only [Session.command] at e
    split at e <;> cases e
  | requireInputBatch echo => exact absurd e requireInputBatch_ne_response
  | requireAsciiLine => exact absurd e requireAsciiLine_ne_response

/-- Settles O56: the kind is below 8 and the code below 16, so the sum packs them apart; and the three commands that reply with a
response tell which kinds each returns. -/
theorem statusWordPacks : Obligations.StatusWordPacks := by
  refine ⟨⟨rfl, rfl, rfl, fun _ => rfl, fun _ => rfl⟩, ⟨rfl, rfl, rfl, rfl, rfl, rfl⟩, fun _ => rfl, fun r => ?_,
    fun c fuel cmd x y r e => ?_⟩
  · have hkind := r.kind_le
    have hstatus := r.status_eq
    obtain ⟨f, h3, hcode⟩ | ⟨h3, hcode⟩ := r.code_cases
    · obtain ⟨h1, h6⟩ := FaultCode.number_bounds f
      refine ⟨?_, ?_, ?_, ?_, ?_, Response.word_eq_zero⟩ <;> omega
    · refine ⟨?_, ?_, ?_, ?_, ?_, Response.word_eq_zero⟩ <;> omega
  · obtain ⟨rfl, q, rfl⟩ | ⟨rfl, q, rfl, hq⟩ | ⟨rfl, hr⟩ := command_response_cases e
    · exact ⟨fun h4 => absurd (Response.kind_eq_four_iff.1 h4) nofun, fun _ => rfl⟩
    · exact ⟨fun h4 => absurd (Response.kind_eq_four_iff.1 h4) nofun,
        fun h0 => absurd (Response.result.inj (Response.kind_eq_zero_iff.1 h0)) hq⟩
    · exact ⟨fun _ => rfl, fun h0 => absurd (Response.kind_eq_zero_iff.1 h0) hr⟩

end Sys2Proof.Machine
end

section
/-! SUPPORT. LOAD (spec/70_reset_and_hazards.md R250): the two errors and the state of a program that fits, which meets the invariant; the
state after reset is that of a program of no words. -/

namespace Sys2Proof.Machine

variable {c : Config} {text : List Char} {P : List Word}

/-- A text can only be malformed. -/
theorem parse_error_eq {e : HostError} (h : parse text = .error e) : e = .malformedProgram := by
  unfold parse at h
  split at h
  next => cases h
  next => exact (Except.error.inj h).symm

/-- LOAD of a malformed text answers what the parser does. -/
theorem loadText_of_parse_error {e : HostError} (h : parse text = .error e) : loadText c text = .error e := by
  simp only [loadText, h]

/-- LOAD of a program checks its length. -/
theorem loadText_of_parse_ok (h : parse text = .ok P) :
    loadText c text = if c.memLimit < P.length then .error .capacityExceeded else .ok (State.load P) := by
  simp only [loadText, h]

/-- A loaded program's words are at their addresses, and 0 elsewhere. -/
theorem get_load (P : List Word) (a : Nat) : (State.load P).mem.get a = P.getD a 0 := by
  rw [State.load, Memory.get_ofWords, if_pos (Nat.zero_le a), Nat.sub_zero, Memory.fill]

/-- Beyond a loaded program every cell is 0. -/
theorem get_load_of_length_le {a : Nat} (h : P.length ≤ a) : (State.load P).mem.get a = 0 := by
  rw [get_load, List.getD_eq_default _ _ h]

/-- A loaded program that fits the memory meets the invariant. -/
theorem inv_load (h : P.length ≤ c.memLimit) : Inv c (State.load P) := by
  have hcells : CellsWithin c (State.load P).mem (State.load P).memLen := by
    intro a ha
    have hlt : a < P.length := by
      by_contra hge
      exact ha (get_load_of_length_le (by omega))
    exact ⟨hlt, by omega⟩
  exact inv_of_unfaulted rfl (Nat.zero_le _) (Memory.wf_ofWords 0 P) hcells (fun _ _ => Nat.zero_le _) (fun _ _ => Nat.zero_le _)

/-- Settles O38: the parser's two answers, and for a program the two sides of `MEM_LIMIT`. -/
theorem loadResets : Obligations.LoadResets := by
  refine fun c _ text => ⟨fun e he => ?_, fun P hP => ⟨fun hlong => ?_, fun hfits => ?_⟩⟩
  · rw [loadText_of_parse_error he, parse_error_eq he]
  · rw [loadText_of_parse_ok hP, if_pos hlong]
  · refine ⟨State.load P, ?_, inv_load hfits, fun a _ => get_load P a, fun a => get_load_of_length_le,
      rfl, rfl, rfl, rfl, rfl, rfl, rfl, rfl⟩
    rw [loadText_of_parse_ok hP, if_neg (by omega)]

/-- The hardware's parameters meet R7's conditions. -/
theorem hardware_valid : Config.hardware.valid :=
  ⟨⟨Nat.one_le_two_pow, le_rfl⟩, nofun, nofun, Nat.le_add_left 1 _⟩

/-- Settles O37: the state after reset is LOAD's for a program of no words, which fits every memory. -/
theorem resetMeetsInvariant : Obligations.ResetMeetsInvariant :=
  ⟨inv_load (P := []) (Nat.zero_le _), hardware_valid⟩

end Sys2Proof.Machine
end

section
/-! SUPPORT. The token grammar of program text (spec/70_reset_and_hazards.md R251): runs of digits, signed numerals, and the blanks around
them, each read by the parser exactly where the grammar gives it. -/

namespace Sys2Proof.Machine

variable {t : List Char}

/-- `[0-9]+`, as `Numeral` writes it. -/
def IsDigits (ds : List Char) : Prop := ds ≠ [] ∧ ∀ x ∈ ds, 48 ≤ x.toNat ∧ x.toNat ≤ 57

/-- The value of a run of digits, most significant first, as `Numeral` writes it. -/
def decimalValue (ds : List Char) : Nat := Nat.ofDigits 10 (ds.map fun x => x.toNat - 48).reverse

/-- `[+-]?[0-9]+` of value `v`: a numeral without the blanks. -/
def SignedNumeral (t : List Char) (v : Int) : Prop :=
  ∃ sign ds, t = sign ++ ds ∧ (sign = [] ∨ sign = ['+'] ∨ sign = ['-']) ∧ IsDigits ds ∧
    v = (if sign = ['-'] then -1 else 1) * (decimalValue ds : Nat)

/-- A character has a digit's value exactly where it is a digit. -/
theorem digitValue_eq_some_iff {x : Char} {d : Nat} :
    digitValue x = some d ↔ (48 ≤ x.toNat ∧ x.toNat ≤ 57) ∧ x.toNat - 48 = d := by
  unfold digitValue
  split
  next h => simp [show 48 ≤ x.toNat ∧ x.toNat ≤ 57 from h]
  next h => exact ⟨nofun, fun h' => absurd h'.1 h⟩

/-- Reading digits after others of value `n` appends them to these. -/
theorem digitsValue_eq_some_iff {n m : Nat} {ds : List Char} :
    digitsValue n ds = some m ↔
      (∀ x ∈ ds, 48 ≤ x.toNat ∧ x.toNat ≤ 57) ∧ (ds.map fun x => x.toNat - 48).foldl (fun v d => d + 10 * v) n = m := by
  induction ds generalizing n with
  | nil => simp [digitsValue]
  | cons x xs ih =>
    unfold digitsValue
    split
    next d hd =>
      obtain ⟨hx, rfl⟩ := digitValue_eq_some_iff.1 hd
      rw [ih, List.forall_mem_cons, List.map_cons, List.foldl_cons, Nat.add_comm (10 * n)]
      simp only [hx, and_self, true_and]
    next hnone =>
      refine ⟨nofun, fun ⟨hall, _⟩ => ?_⟩
      rw [digitValue_eq_some_iff.2 ⟨hall x List.mem_cons_self, rfl⟩] at hnone
      cases hnone

/-- The parser's left-to-right value is the positional one. -/
theorem decimalValue_eq_foldl (ds : List Char) :
    decimalValue ds = (ds.map fun x => x.toNat - 48).foldl (fun v d => d + 10 * v) 0 := by
  rw [decimalValue, Nat.ofDigits_eq_foldr, List.foldr_reverse]
  rfl

/-- An unsigned value is that of a run of digits. -/
theorem unsignedValue_eq_some_iff {ds : List Char} {n : Nat} : unsignedValue ds = some n ↔ IsDigits ds ∧ decimalValue ds = n := by
  cases ds with
  | nil => exact ⟨nofun, fun h => absurd rfl h.1.1⟩
  | cons x xs => simp only [unsignedValue, digitsValue_eq_some_iff, IsDigits, decimalValue_eq_foldl, ne_eq, reduceCtorEq,
      not_false_eq_true, true_and]

/-- A run of digits starts with no sign. -/
theorem IsDigits.head_ne_sign {x : Char} {xs : List Char} (h : IsDigits (x :: xs)) : x ≠ '-' ∧ x ≠ '+' := by
  obtain ⟨hlow, -⟩ := h.2 x List.mem_cons_self
  constructor <;> (rintro rfl; exact absurd hlow (by decide))

/-- Without a sign, the signed value of a run of digits is its unsigned one. -/
theorem signedValue_of_isDigits {ds : List Char} (h : IsDigits ds) :
    signedValue ds = (unsignedValue ds).map fun n : Nat => (n : Int) := by
  unfold signedValue
  split
  next => exact absurd rfl h.head_ne_sign.1
  next => exact absurd rfl h.head_ne_sign.2
  next => rfl

/-- A signed value is that of a signed numeral. -/
theorem signedValue_eq_some_iff {v : Int} : signedValue t = some v ↔ SignedNumeral t v := by
  constructor
  · intro h
    unfold signedValue at h
    split at h
    all_goals
      obtain ⟨n, hn, rfl⟩ := Option.map_eq_some_iff.1 h
      obtain ⟨hds, rfl⟩ := unsignedValue_eq_some_iff.1 hn
    next ds => exact ⟨['-'], ds, rfl, .inr (.inr rfl), hds, by simp⟩
    next ds => exact ⟨['+'], ds, rfl, .inr (.inl rfl), hds, by simp⟩
    next => exact ⟨[], t, rfl, .inl rfl, hds, by simp⟩
  · rintro ⟨sign, ds, rfl, hsign, hds, rfl⟩
    have hvalue := unsignedValue_eq_some_iff.2 ⟨hds, rfl⟩
    obtain rfl | rfl | rfl := hsign
    · rw [List.nil_append, signedValue_of_isDigits hds, hvalue]; simp
    · simp [signedValue, hvalue]
    · simp [signedValue, hvalue]

/-- The four blanks. -/
theorem isBlank_iff {x : Char} : isBlank x = true ↔ x = ' ' ∨ x = '\t' ∨ x = '\r' ∨ x = '\n' := by
  simp [isBlank, or_assoc]

/-- No character of a signed numeral is blank. -/
theorem SignedNumeral.not_blank {v : Int} (h : SignedNumeral t v) {x : Char} (hx : x ∈ t) : isBlank x = false := by
  have digit_not_blank : ∀ y : Char, 48 ≤ y.toNat → isBlank y = false := by
    intro y hlow
    rw [Bool.eq_false_iff, ne_eq, isBlank_iff]
    rintro (rfl | rfl | rfl | rfl) <;> exact absurd hlow (by decide)
  obtain ⟨sign, ds, rfl, hsign, ⟨-, hds⟩, -⟩ := h
  obtain hx | hx := List.mem_append.1 hx
  · obtain rfl | rfl | rfl := hsign
    · cases hx
    · rw [List.mem_singleton.1 hx]; rfl
    · rw [List.mem_singleton.1 hx]; rfl
  · exact digit_not_blank x (hds x hx).1

/-- Trimming takes blanks, and nothing else, from the two ends. -/
theorem exists_blanks_around_trim (t : List Char) :
    ∃ pre post, t = pre ++ trim t ++ post ∧ ∀ x ∈ pre ++ post, isBlank x = true := by
  refine ⟨t.takeWhile isBlank, (t.dropWhile isBlank).rtakeWhile isBlank, ?_, fun x hx => ?_⟩
  · have hback : trim t ++ (t.dropWhile isBlank).rtakeWhile isBlank = t.dropWhile isBlank := List.rdropWhile_append_rtakeWhile
    rw [List.append_assoc, hback, List.takeWhile_append_dropWhile]
  · obtain hx | hx := List.mem_append.1 hx
    · exact List.mem_takeWhile_imp hx
    · exact List.mem_rtakeWhile_imp hx

/-- Dropping blanks stops at a non-empty list without blanks. -/
theorem dropWhile_blanks_append {pre core : List Char} (rest : List Char) (hpre : ∀ x ∈ pre, isBlank x = true) (hne : core ≠ [])
    (hcore : ∀ x ∈ core, isBlank x = false) : (pre ++ (core ++ rest)).dropWhile isBlank = core ++ rest := by
  obtain ⟨x, xs, rfl⟩ := List.exists_cons_of_ne_nil hne
  rw [List.dropWhile_append_of_pos hpre, List.cons_append, List.dropWhile_cons_of_neg (by simp [hcore x List.mem_cons_self])]

/-- Trimming blanks around a non-empty list without blanks leaves that list. -/
theorem trim_of_blanks_around {pre core post : List Char} (hblank : ∀ x ∈ pre ++ post, isBlank x = true) (hne : core ≠ [])
    (hcore : ∀ x ∈ core, isBlank x = false) : trim (pre ++ core ++ post) = core := by
  rw [List.forall_mem_append] at hblank
  obtain ⟨hpre, hpost⟩ := hblank
  have hfront : (pre ++ core ++ post).dropWhile isBlank = core ++ post := by
    rw [List.append_assoc, dropWhile_blanks_append post hpre hne hcore]
  have hback : (core ++ post).reverse.dropWhile isBlank = core.reverse := by
    simpa using dropWhile_blanks_append (pre := post.reverse) (core := core.reverse) [] (by simpa using hpost) (by simpa using hne)
      (by simpa using hcore)
  rw [trim, hfront, hback, List.reverse_reverse]

/-- A numeral is what trims to a signed numeral. -/
theorem numeral_iff_trim {v : Int} : Numeral t v ↔ SignedNumeral (trim t) v := by
  constructor
  · rintro ⟨pre, sign, ds, post, rfl, hblank, hsign, hne, hds, hv⟩
    have hnum : SignedNumeral (sign ++ ds) v := ⟨sign, ds, rfl, hsign, ⟨hne, hds⟩, hv⟩
    have htrim : trim (pre ++ (sign ++ ds) ++ post) = sign ++ ds :=
      trim_of_blanks_around (fun x hx => isBlank_iff.2 (hblank x hx)) (by simp [hne]) fun _ => hnum.not_blank
    rw [List.append_assoc pre, htrim]
    exact hnum
  · rintro ⟨sign, ds, htrim, hsign, ⟨hne, hds⟩, hv⟩
    obtain ⟨pre, post, ht, hblank⟩ := exists_blanks_around_trim t
    exact ⟨pre, sign, ds, post, by rw [ht, htrim]; simp only [List.append_assoc],
      fun x hx => isBlank_iff.1 (hblank x hx), hsign, hne, hds, hv⟩

/-- A token is the word whose value its signed value is. -/
theorem tokenWord_eq_some_iff {w : Word} : tokenWord t = some w ↔ signedValue (trim t) = some w.toInt := by
  unfold tokenWord
  split
  next v hv =>
    rw [hv, Option.some.injEq]
    split
    next hfits =>
      rw [Option.some.injEq]
      exact ⟨fun h => by rw [← h, toInt_ofInt_of_fits hfits], fun h => by rw [h, Word.ofInt, BitVec.ofInt_toInt]⟩
    next hfits => exact ⟨nofun, fun h => absurd (h ▸ fits64_toInt w) hfits⟩
  next hnone => simp [hnone]

end Sys2Proof.Machine
end

section
/-! SUPPORT. A program text as its tokens (spec/70_reset_and_hazards.md R251): splitting at the commas is the library's `List.splitOn`, and
the parser reads every token or none. -/

namespace Sys2Proof.Machine

variable {text : List Char} {ts : List (List Char)} {P : List Word}

/-- There is always a first token. -/
theorem splitCommas_ne_nil (text : List Char) : splitCommas text ≠ [] := by
  cases text with
  | nil => exact List.cons_ne_nil _ _
  | cons x xs =>
    rw [splitCommas]
    split_ifs
    · exact List.cons_ne_nil _ _
    · split <;> exact List.cons_ne_nil _ _

/-- A comma starts a new token. -/
theorem splitCommas_cons_comma (xs : List Char) : splitCommas (',' :: xs) = [] :: splitCommas xs := rfl

/-- Any other character goes to the first token of the rest. -/
theorem splitCommas_cons_of_ne {x : Char} (hx : x ≠ ',') (xs : List Char) :
    ∃ t ts, splitCommas xs = t :: ts ∧ splitCommas (x :: xs) = (x :: t) :: ts := by
  obtain ⟨t, ts, hts⟩ := List.exists_cons_of_ne_nil (splitCommas_ne_nil xs)
  exact ⟨t, ts, hts, by simp only [splitCommas, if_neg hx, hts]⟩

/-- Splitting at the commas is the library's splitting. -/
theorem splitCommas_eq_splitOn (text : List Char) : splitCommas text = text.splitOn ',' := by
  induction text with
  | nil => rfl
  | cons x xs ih =>
    rw [List.splitOn_cons_eq_if_modifyHead, ← ih]
    by_cases hx : x = ','
    · rw [if_pos (beq_iff_eq.2 hx), hx, splitCommas_cons_comma]
    · obtain ⟨t, ts, hxs, hcons⟩ := splitCommas_cons_of_ne hx xs
      rw [if_neg (by simpa using hx), hcons, hxs, List.modifyHead_cons]

/-- There is one token more than there are commas. -/
theorem length_splitCommas (text : List Char) : (splitCommas text).length = text.count ',' + 1 := by
  induction text with
  | nil => rfl
  | cons x xs ih =>
    by_cases hx : x = ','
    · rw [hx, splitCommas_cons_comma, List.length_cons, ih, List.count_cons_self]
    · obtain ⟨t, ts, hxs, hcons⟩ := splitCommas_cons_of_ne hx xs
      rw [hcons, List.count_cons_of_ne hx, ← ih, hxs, List.length_cons, List.length_cons]

/-- No token holds a comma. -/
theorem comma_notMem_of_mem_splitCommas {t : List Char} (ht : t ∈ splitCommas text) : ',' ∉ t := by
  induction text generalizing t with
  | nil => rw [List.mem_singleton.1 ht]; exact List.not_mem_nil
  | cons x xs ih =>
    by_cases hx : x = ','
    · rw [hx, splitCommas_cons_comma] at ht
      obtain rfl | ht := List.mem_cons.1 ht
      · exact List.not_mem_nil
      · exact ih ht
    · obtain ⟨u, us, hxs, hcons⟩ := splitCommas_cons_of_ne hx xs
      rw [hxs] at ih
      rw [hcons] at ht
      obtain rfl | ht := List.mem_cons.1 ht
      · exact List.not_mem_cons_of_ne_of_not_mem (Ne.symm hx) (ih List.mem_cons_self)
      · exact ih (List.mem_cons_of_mem u ht)

/-- The words of a non-empty list of tokens are the first's and the others'. -/
theorem tokensWords_cons (t : List Char) (ts : List (List Char)) :
    tokensWords (t :: ts) = (tokenWord t).bind fun w => (tokensWords ts).map (w :: ·) := by
  rw [tokensWords]
  cases tokenWord t with
  | none => rfl
  | some w => cases tokensWords ts <;> rfl

/-- Every token is read, in order. -/
theorem tokensWords_eq_some_iff : tokensWords ts = some P ↔ ts.map tokenWord = P.map some := by
  induction ts generalizing P with
  | nil => cases P <;> simp [tokensWords]
  | cons t ts ih =>
    rw [tokensWords_cons, List.map_cons]
    cases P with
    | nil => cases tokenWord t <;> simp
    | cons w ws => cases tokenWord t <;> simp [ih, and_comm]

/-- None is, where some token is no word. -/
theorem tokensWords_eq_none_iff : tokensWords ts = none ↔ ∃ t ∈ ts, tokenWord t = none := by
  induction ts with
  | nil => simp [tokensWords]
  | cons t ts ih =>
    rw [tokensWords_cons, List.exists_mem_cons_iff, ← ih]
    cases tokenWord t <;> simp

/-- A text parses to what its tokens read as. -/
theorem parse_eq_ok_iff : parse text = .ok P ↔ (splitCommas text).map tokenWord = P.map some := by
  rw [← tokensWords_eq_some_iff, parse]
  cases tokensWords (splitCommas text) <;> simp

/-- A text is malformed where its tokens do not read. -/
theorem parse_eq_malformed_iff : parse text = .error .malformedProgram ↔ ∃ t ∈ splitCommas text, tokenWord t = none := by
  rw [← tokensWords_eq_none_iff, parse]
  cases tokensWords (splitCommas text) <;> simp

/-- Settles O57: a text by its tokens, and a token by the grammar. -/
theorem parseIsTokenwise : Obligations.ParseIsTokenwise := by
  refine ⟨fun text => ⟨parse_eq_malformed_iff, fun P hP => ?_, fun _ => comma_notMem_of_mem_splitCommas, ?_⟩, fun t w => ?_⟩
  · have hwords := parse_eq_ok_iff.1 hP
    refine ⟨hwords, ?_⟩
    calc P.length = ((splitCommas text).map tokenWord).length := by rw [hwords, List.length_map]
      _ = text.count ',' + 1 := by rw [List.length_map, length_splitCommas]
  · rw [splitCommas_eq_splitOn, List.intercalate_splitOn]
  · rw [tokenWord_eq_some_iff, signedValue_eq_some_iff, numeral_iff_trim]

end Sys2Proof.Machine
end
